-- ==== Sys2Proof/Word.lean ====
section
/-! DEFINITION. The word and byte types of the unit and its fixed-length word vectors (R7, R10, R11). -/

namespace Sys2Proof

/-- `W` = 32 bits, unsigned (R7, R10). -/
abbrev Word := BitVec 32

/-- 8 bits (R10). -/
abbrev Byte := BitVec 8

/-- `NH` = 8 words of hash state (R7, R21); also the shape of `IV` (R55). -/
abbrev Words8 := Vector Word 8

/-- `NV` = `NM` = 16 words: the working vector `v` and the message block `m` (R7, R25, R26). -/
abbrev Words16 := Vector Word 16

/-- `BB` = 64 bytes: the block buffer `BLK` (R7, R51). -/
abbrev Block := Vector Byte 64

/-- 32 bytes: the digest buffer `DOUT` (R39, R58). -/
abbrev DigestBuffer := Vector Byte 32

end Sys2Proof
end

