-- ==== Sys2Proof/Config.lean ====
section
/-! DEFINITION. What an implementation fixes and the spec leaves open: the values of state that "holds no value"
(R42, R43, R143), the latency `LAT` (R247) and the cycles on which trace events show (R102). Every one is an opaque
constant without a body, so nothing can be proved of its value. `bus_map` (R66) is out of scope and `G_LANES` (R131)
is not observable; neither has a constant here. -/

namespace Sys2Proof

/-- The eight registers of the G pipeline, one per line of the G pseudocode (R27, R109, R110). -/
structure GRegs where
  a1 : Word
  d1 : Word
  c1 : Word
  b1 : Word
  a2 : Word
  d2 : Word
  c2 : Word
  b2 : Word
  deriving DecidableEq, Repr, Inhabited

/-- The scratch registers: they mean something only while a command runs (R25 to R29, R44). `microResult` is the
model's own: the one-word result of ADD32, XOR32 or ROTR run on its own (assumption 7). -/
structure Scratch where
  /-- Message block register (R25). -/
  m : Words16
  /-- Working vector (R26). -/
  v : Words16
  /-- Registers of the G pipeline (R27). -/
  gregs : GRegs
  /-- Round index, a number below 10 by type (R28, R92). -/
  r : Fin 10
  /-- G index within the round (R28). -/
  g : Fin 8
  /-- Final-block flag, the operand `final` of F (R29). -/
  f : Bool
  /-- The model's own: result word of a stand-alone ADD32, XOR32 or ROTR. -/
  microResult : Word
  deriving DecidableEq, Repr, Inhabited

/-- The registers that reset leaves without a value and that are no scratch (R42). -/
structure UnwrittenRegs where
  h : Words8
  t : BitVec 64
  nn : BitVec 6
  kk : BitVec 6
  blk : BitVec 64
  dout : DigestBuffer
  dlen : BitVec 6
  deriving DecidableEq, Repr, Inhabited

/-- Free values: what the registers of R42 that "hold no value" hold after the reset that draws number `n`.
DESIGN CHOICE, assumption 1: a model "may leave it arbitrary" (R43). -/
opaque Config.unwrittenRegs : Nat → UnwrittenRegs

/-- Free values: what the scratch registers hold between commands (R44, R143), one draw per command or reset.
DESIGN CHOICE, assumption 2. -/
opaque Config.unwrittenScratch : Nat → Scratch

/-- Free value: what `BLK` holds before the host first writes it. DESIGN CHOICE, assumption 3. -/
opaque Config.powerUpBlock : Block

/-- Open parameter `LAT(op)` (R9, R247): cycles from the acceptance of a command with opcode `op` to its response. Any
number, 0 included; it may depend on the opcode and on `TRACE_EN`, never on data. Read by the signal level only. -/
opaque Config.lat : BitVec 3 → Bool → Nat

/-- Free values: whether the next trace event of the command with draw number `n` shows on the trace ports already in the
cycle that is `k` cycles before its response; R102 leaves the cycle open up to that of the response. DESIGN CHOICE, assumption 14.
Read by the signal level only. -/
opaque Config.traceShows : Nat → Nat → Bool

end Sys2Proof
end

