-- ==== Sys2Proof/Machine/State.lean ====
section
/-! DEFINITION. The state of the unit (R20), the host's actions still to come, the reasons a step can stop, and the
state after reset (R42). -/

namespace Sys2Proof.Machine

/-- The sequencer phase (R23); the value 3 is never held. -/
inductive Phase where
  | init
  | absorbing
  | finalized
  deriving DecidableEq, Repr

/-- The response codes (R201). -/
inductive Resp where
  | ok
  | configError
  | stateError
  | illegalCommand
  deriving DecidableEq, Repr

/-- The six input words of a G call (R109). -/
structure GIn where
  a : Word
  b : Word
  c : Word
  d : Word
  m0 : Word
  m1 : Word
  deriving DecidableEq, Repr

/-- The events of the trace log (R215). -/
inductive TraceEvent where
  /-- Before the first G step of round `r` (R144). -/
  | roundPre (blk : BitVec 64) (r : Fin 10) (v m : Words16)
  /-- After G step `g` of round `r`: the six inputs and the eight values computed (R113). -/
  | gsnap (blk : BitVec 64) (r : Fin 10) (g : Fin 8) (i : GIn) (x : GRegs)
  /-- After the last G step of round `r` (R144). -/
  | roundPost (blk : BitVec 64) (r : Fin 10) (v m : Words16)
  deriving DecidableEq, Repr

/-- What the host can do to the unit (R16, R75). -/
inductive HostAction where
  /-- Assert `rst_n` between commands (R101, R230). -/
  | reset
  /-- Write `BLK[k] <- bytes[k]` for every `k` below the number of bytes given and below 64 (R40, R64, R181). -/
  | fill (bytes : List Byte)
  /-- Present a command word (R75). -/
  | command (w : BitVec 16)
  deriving DecidableEq, Repr

/-- The whole state: R20's list, `ready` (R32), the trace log (R38), the host's `BLK` (R40), and the model's own `host`
and `free` (INVENTORY.md). `PARAM` is `nn` and `kk` with hardwired fields (R24; `State.param` in Ops). -/
@[ext]
structure State where
  h : Words8
  t : BitVec 64
  phase : Phase
  nn : BitVec 6
  kk : BitVec 6
  blk : BitVec 64
  fault : BitVec 3
  resp : Resp
  dvalid : Bool
  traceEn : Bool
  dout : DigestBuffer
  dlen : BitVec 6
  ready : Bool
  /-- The registers that mean something only inside a command (R25 to R29). -/
  scratch : Scratch
  /-- Everything emitted so far, oldest event first (R38). -/
  trace : List TraceEvent
  /-- The host's block buffer `BLK` (R40, R51). -/
  block : Block
  /-- The model's own: the host's actions still to come, oldest first (assumption 4). -/
  host : List HostAction
  /-- The model's own: the number of the next draw of free values (assumption 2). -/
  free : Nat
  deriving DecidableEq, Repr

/-- Nothing raises one: every command word has a next state, the three errors are next states (R225), and nothing
sticks (R226). Safe: the type is empty, so no step of the model stops where the unit goes on. -/
inductive Fault where
  deriving DecidableEq, Repr

/-- Why a step has no meaning. -/
inductive Refusal where
  /-- Raised by an arm of `exec` for an instruction that has no meaning yet; no arm does. Safe: a run that meets it
  stops. -/
  | notModelled (mnemonic : String)
  deriving DecidableEq, Repr

/-- What a step answers. -/
abbrev Result := Host.Outcome State Fault Refusal

/-- Right after reset (R42, R230): the registers of R42 that "hold no value" hold opaque values (assumptions 1 and 2),
`BLK` is the host's and unknown (assumption 3), no event was emitted yet (assumption 10), and the host has presented
nothing (assumption 4). -/
def State.reset : State :=
  let u := Config.unwrittenRegs 0
  { h := u.h, t := u.t, nn := u.nn, kk := u.kk, blk := u.blk, dout := u.dout, dlen := u.dlen,
    phase := .init, fault := 0, resp := .ok, dvalid := false, traceEn := false, ready := true,
    scratch := Config.unwrittenScratch 0, trace := [], block := Config.powerUpBlock, host := [], free := 1 }

end Sys2Proof.Machine
end

