-- ==== Sys2Proof/Machine/Flags.lean ====
section
/-! DEFINITION. The status outputs: codes of `phase` (R23) and `RESP` (R201), the sticky register `FAULT` (R33, R201). The
unit has no arithmetic flag (R105, R115). -/

namespace Sys2Proof.Machine

/-- The numeric encoding of `phase` (R23). -/
def Phase.code : Phase → BitVec 2
  | .init => 0
  | .absorbing => 1
  | .finalized => 2

/-- The 2-bit response code (R201). -/
def Resp.code : Resp → BitVec 2
  | .ok => 0
  | .configError => 1
  | .stateError => 2
  | .illegalCommand => 3

/-- The three error classes (R200). -/
inductive CmdError where
  /-- A digest or key length outside its range, raised by INIT only (R202). -/
  | config
  /-- A command out of order of use (R203). -/
  | state
  /-- A command word that decodes to Illegal (R204). -/
  | illegal
  deriving DecidableEq, Repr

/-- The response of an error class (R201). -/
def CmdError.resp : CmdError → Resp
  | .config => .configError
  | .state => .stateError
  | .illegal => .illegalCommand

/-- "For a non-zero code `c`, the sticky bit is `FAULT[c - 1]`" (R201). -/
def CmdError.faultMask (e : CmdError) : BitVec 3 := 1#3 <<< (e.resp.code.toNat - 1)

/-- `FAULT[code(E) - 1] <- 1`; a bit already 1 stays 1 (R205, R210). -/
def setFault (e : CmdError) (fault : BitVec 3) : BitVec 3 := fault ||| e.faultMask

end Sys2Proof.Machine
end

