-- ==== Sys2Proof/Machine/Ops.lean ====
section
/-! DEFINITION. The named operations over registers, buffers and the trace log (R13), and raising an error as one shared
operation (R205). There is no return beside it: the unit has no handler to return from (R209). -/

namespace Sys2Proof.Machine

/-- `RESP <- OK`, the last act of every command that succeeds (R34, R201). -/
def respondOk (s : State) : State := { s with resp := .ok }

/-- `raise E` (R14, R205): `RESP <- code(E)`, `FAULT[code(E) - 1] <- 1`, nothing else. -/
def raiseError (e : CmdError) (s : State) : State :=
  { s with resp := e.resp, fault := setFault e s.fault }

/-- `emit EV`: append one event, only when `TRACE_EN = 1` (R13, R214). -/
def emit (ev : TraceEvent) (s : State) : State :=
  { s with trace := if s.traceEn then s.trace ++ [ev] else s.trace }

/-- The host writes the first bytes of `BLK` (R40, R181); the others keep what they held. -/
def fillBlock (bytes : List Byte) (b : Block) : Block :=
  Vector.ofFn fun k => if h : k.val < bytes.length then bytes[k.val] else b[k]

/-- The host's action of filling `BLK`: no effect on the unit (R63). -/
def fillBlk (bytes : List Byte) (s : State) : State := { s with block := fillBlock bytes s.block }

/-- The number whose little-endian bytes are given: the sum of `b_k * 2^(8k)` (R13). -/
def leNat : List Byte → Nat
  | [] => 0
  | b :: bs => b.toNat + 256 * leNat bs

/-- `MemRead(BLK, a, n)` (R13), for `a + n <= 64`. -/
def memRead (b : Block) (a n : Nat) : Nat := leNat ((b.toList.drop a).take n)

/-- Byte `j` of a word, counted from the least significant: `w[8j+7:8j]` (R13, R59). -/
def wordByte (w : Word) (j : Nat) : Byte := w.extractLsb' (8 * j) 8

/-- `MemWrite(DOUT, a, n, w)` (R13): the `n` low bytes of `w`, least significant first, at `a`. -/
def memWrite (d : DigestBuffer) (a n : Nat) (w : Word) : DigestBuffer :=
  Vector.ofFn fun k => if a ≤ k.val ∧ k.val < a + n then wordByte w (k.val - a) else d[k]

/-- `t.low = t[31:0]` (R13, R22). -/
def tLow (t : BitVec 64) : Word := t.extractLsb' 0 32

/-- `t.high = t[63:32]` (R13, R22). -/
def tHigh (t : BitVec 64) : Word := t.extractLsb' 32 32

/-- `add64`: the counter addition, modulo 2^64 (R12, R171, R172). -/
def add64 (x y : BitVec 64) : BitVec 64 := x + y

/-- The register `PARAM` read as one word (R24): `depth`, `fanout`, `kk`, `nn`, each in a byte; depth and fanout are
hardwired to 1 (R154). -/
def State.param (s : State) : Word := 1#8 ++ 1#8 ++ (0#2 ++ s.kk) ++ (0#2 ++ s.nn)

/-- The scratch registers stop meaning anything when a command ends (R44, R143): they take free values, and the next draw
is another one (assumption 2). -/
def releaseScratch (s : State) : State :=
  { s with scratch := Config.unwrittenScratch s.free, free := s.free + 1 }

/-- Run the second operation on the next state of the first; a stop of the first is a stop of both. -/
def andThen (x : Result) (k : State → Result) : Result :=
  match x with
  | .next s => k s
  | .fault r => .fault r
  | .refused r => .refused r

end Sys2Proof.Machine
end

