-- ==== Sys2Proof/Machine/ResetOp.lean ====
section
/-! DEFINITION. RESET (R230, R232). -/

namespace Sys2Proof.Machine

/-- RESET (R230): the state of R42. The registers that hold no value take a new draw of free values; the trace log already
recorded, `BLK` and what the host goes on to do are outside the unit and are not touched (R38, R42, R232). -/
def execReset (s : State) : Result :=
  let u := Config.unwrittenRegs s.free
  .next (releaseScratch
    { s with h := u.h, t := u.t, nn := u.nn, kk := u.kk, blk := u.blk, dout := u.dout, dlen := u.dlen,
             phase := .init, fault := 0, resp := .ok, dvalid := false, traceEn := false, ready := true })

end Sys2Proof.Machine
end

