-- ==== Sys2Proof/Syntax.lean ====
section
/-! DEFINITION. The instructions: one constructor per row of spec/opcode_table.json. -/

namespace Sys2Proof

/-- The rotation distances of G: "`n` is always one of {16, 12, 8, 7}" (R107). -/
inductive RotDist where
  | r16
  | r12
  | r8
  | r7
  deriving DecidableEq, Repr

/-- The number of bit positions of a distance. -/
def RotDist.bits : RotDist → Nat
  | .r16 => 16
  | .r12 => 12
  | .r8 => 8
  | .r7 => 7

/-- The rows of the opcode table: the six commands and the two reserved opcodes, which have a 16-bit command word
(R76, R77, R83); GSTEP, which has a 7-bit internal step word (R90); and the operations without any encoding (R89, R95). -/
inductive Instr where
  /-- R166. -/
  | nop
  /-- R158: digest length `nn`, key length `kk`. -/
  | init (nn kk : BitVec 6)
  /-- R167: the block operand is `BLK`, not in the word. -/
  | update
  /-- R169: `len` message bytes in the final block. -/
  | finish (len : BitVec 7)
  /-- R192. -/
  | digest
  /-- R176: the new value of `TRACE_EN`. -/
  | trace (en : Bool)
  /-- R83 item 1: `op = 6`, any upper bits. -/
  | reservedOp6 (hi : BitVec 13)
  /-- R83 item 1: `op = 7`, any upper bits. -/
  | reservedOp7 (hi : BitVec 13)
  /-- R123: the step word read as `r` and `g`; step words 80 to 127 do not exist (R92). -/
  | gstep (r : Fin 10) (g : Fin 8)
  /-- R105: two or three operands. -/
  | add32 (x y : Word) (z : Option Word)
  /-- R106. -/
  | xor32 (x y : Word)
  /-- R107. -/
  | rotr (x : Word) (n : RotDist)
  /-- R109. -/
  | g (a b c d m0 m1 : Word)
  /-- R124. -/
  | round (r : Fin 10)
  /-- R135, R141: `h`, `m` and `t` are the state's; `final` is the flag `f`. -/
  | f (final : Bool)
  /-- R230: the pin `rst_n`, no command word. -/
  | reset
  /-- R181: the host procedure, no word of its own. -/
  | hash (nn kk : BitVec 6) (msg : List Byte)
  deriving DecidableEq, Repr

end Sys2Proof
end

