-- ==== Sys2Proof/WellFormed.lean ====
section
/-! DEFINITION. Which instruction terms stand for an instruction of the unit. Every other bound is in a type: INIT's
operands fill their fields (R86), GSTEP and ROUND have `r` below 10 (R92), ROTR has its four distances (R107). -/

namespace Sys2Proof

/-- FINISH takes `len` in 0..64; 65 to 127 are reserved words (R80, R83 item 5). -/
def Instr.wellFormed : Instr → Bool
  | .finish len => len ≤ 64#7
  | .nop => true
  | .init _ _ => true
  | .update => true
  | .digest => true
  | .trace _ => true
  | .reservedOp6 _ => true
  | .reservedOp7 _ => true
  | .gstep _ _ => true
  | .add32 _ _ _ => true
  | .xor32 _ _ => true
  | .rotr _ _ => true
  | .g _ _ _ _ _ _ => true
  | .round _ => true
  | .f _ => true
  | .reset => true
  | .hash _ _ _ => true

/-- The rows a host can present as a command word (R75, R77, R83). -/
def Instr.isCommand : Instr → Bool
  | .nop | .init _ _ | .update | .finish _ | .digest | .trace _ | .reservedOp6 _ | .reservedOp7 _ => true
  | .gstep _ _ | .add32 _ _ _ | .xor32 _ _ | .rotr _ _ | .g _ _ _ _ _ _ | .round _ | .f _ | .reset | .hash _ _ _ => false

end Sys2Proof
end

