-- ==== Sys2Proof/Decode.lean ====
section
/-! DEFINITION. The decoder of command words (R82), total on all 65536 words and rejecting by name; the decoder of step
words (R90, R91); the encoders, written from R76 to R81 and R90; the host's `decodeTableWord`. -/

namespace Sys2Proof

/-- Why a word with an assigned opcode is reserved (R83). A rejected word is no dead end: the unit accepts it and raises
IllegalCommand (R82, R204; Machine/Step.lean). -/
inductive IllegalWord where
  /-- A reserved bit of the word's format is set (R83 items 2, 3, 4 and 6). -/
  | reservedBits
  /-- FINISH with `len` in 65..127 (R83 item 5). -/
  | finishLength
  deriving DecidableEq, Repr

/-- `op = CMD[2:0]` (R77, R85). -/
def opField (w : BitVec 16) : BitVec 3 := w.extractLsb' 0 3

/-- R82. The two reserved opcodes are rows of the table and decode to their own constructors, whose meaning is
IllegalCommand (assumption 9). -/
def decode (w : BitVec 16) : Except IllegalWord Instr :=
  let op := opField w
  if op = 0 then
    if w.extractLsb' 3 13 = 0 then .ok .nop else .error .reservedBits
  else if op = 1 then
    if w.extractLsb' 15 1 = 0 then .ok (.init (w.extractLsb' 3 6) (w.extractLsb' 9 6)) else .error .reservedBits
  else if op = 2 then
    if w.extractLsb' 3 13 = 0 then .ok .update else .error .reservedBits
  else if op = 3 then
    if w.extractLsb' 10 6 = 0 then
      if w.extractLsb' 3 7 ≤ 64#7 then .ok (.finish (w.extractLsb' 3 7)) else .error .finishLength
    else .error .reservedBits
  else if op = 4 then
    if w.extractLsb' 3 13 = 0 then .ok .digest else .error .reservedBits
  else if op = 5 then
    if w.extractLsb' 4 12 = 0 then .ok (.trace (w.getLsbD 3)) else .error .reservedBits
  else if op = 6 then .ok (.reservedOp6 (w.extractLsb' 3 13))
  else .ok (.reservedOp7 (w.extractLsb' 3 13))

/-- The step word `s` in 0..79 as its GSTEP: `r = s div 8`, `g = s mod 8` (R91, R123); 80 to 127 are never issued (R92). -/
def decodeStep (s : BitVec 7) : Option Instr :=
  if h : s.toNat < 80 then
    some (.gstep ⟨s.toNat / 8, by omega⟩ ⟨s.toNat % 8, Nat.mod_lt _ (by decide)⟩)
  else none

/-- The step word `8 r + g` (R90). -/
def encodeStep (r : Fin 10) (g : Fin 8) : BitVec 7 := BitVec.ofNat 7 (8 * r.val + g.val)

/-- `INIT nn, kk` is `1 + 8 nn + 512 kk` (R79). -/
def initWord (nn kk : BitVec 6) : BitVec 16 :=
  BitVec.ofNat 16 (1 + 8 * nn.toNat + 512 * kk.toNat)

/-- `FINISH len` is `3 + 8 len` (R80); for `len` above 64 it is a reserved word (R83 item 5, R94). -/
def finishWord (len : BitVec 7) : BitVec 16 := BitVec.ofNat 16 (3 + 8 * len.toNat)

/-- `TRACE en` is `5 + 8 en` (R81). -/
def traceWord (en : Bool) : BitVec 16 := BitVec.ofNat 16 (5 + 8 * en.toNat)

/-- A word with `op = 6` and the given upper bits (R83 item 1). -/
def reservedWord6 (hi : BitVec 13) : BitVec 16 := BitVec.ofNat 16 (6 + 8 * hi.toNat)

/-- A word with `op = 7` and the given upper bits (R83 item 1). -/
def reservedWord7 (hi : BitVec 13) : BitVec 16 := BitVec.ofNat 16 (7 + 8 * hi.toNat)

/-- The command word of an instruction that has one (R76 to R81, R83); `none` for GSTEP, whose word is `encodeStep`, and
for the operations without an encoding (R89, R95, R230). -/
def encode : Instr → Option (BitVec 16)
  | .nop => some 0x0000
  | .init nn kk => some (initWord nn kk)
  | .update => some 0x0002
  | .finish len => some (finishWord len)
  | .digest => some 0x0004
  | .trace en => some (traceWord en)
  | .reservedOp6 hi => some (reservedWord6 hi)
  | .reservedOp7 hi => some (reservedWord7 hi)
  | .gstep _ _ => none
  | .add32 _ _ _ => none
  | .xor32 _ _ => none
  | .rotr _ _ => none
  | .g _ _ _ _ _ _ => none
  | .round _ => none
  | .f _ => none
  | .reset => none
  | .hash _ _ _ => none

/-- The instruction the decoders read from a word of a table row of `nbits` bits: a row of at most 8 bits is GSTEP's step
word (the only row shorter than a command word), any other row is a command word. -/
def decodeTableWord (nbits w : Nat) : Option Instr :=
  if nbits ≤ 8 then
    if w < 128 then decodeStep (BitVec.ofNat 7 w) else none
  else
    match decode (BitVec.ofNat 16 w) with
    | .ok i => some i
    | .error _ => none

end Sys2Proof
end

