-- ==== Sys2Proof/Machine/Tables.lean ====
section
/-! DEFINITION. The constant tables: `IV` (R55), `SIGMA` (R56), `QUAD` (R121), and the orders in which rounds and G calls
are issued (R124, R125). Read-only, exported for conformance tooling (R57). -/

namespace Sys2Proof.Machine

/-- R55. -/
def IV : Words8 :=
  #v[0x6A09E667, 0xBB67AE85, 0x3C6EF372, 0xA54FF53A, 0x510E527F, 0x9B05688C, 0x1F83D9AB, 0x5BE0CD19]

/-- R56: row `r`, column `j` is `SIGMA[r][j]`. -/
def SIGMA : Vector (Vector (Fin 16) 16) 10 :=
  #v[#v[0, 1, 2, 3, 4, 5, 6, 7, 8, 9, 10, 11, 12, 13, 14, 15],
     #v[14, 10, 4, 8, 9, 15, 13, 6, 1, 12, 0, 2, 11, 7, 5, 3],
     #v[11, 8, 12, 0, 5, 2, 15, 13, 10, 14, 3, 6, 7, 1, 9, 4],
     #v[7, 9, 3, 1, 13, 12, 11, 14, 2, 6, 5, 10, 4, 0, 15, 8],
     #v[9, 0, 5, 7, 2, 4, 10, 15, 14, 1, 11, 12, 6, 8, 3, 13],
     #v[2, 12, 6, 10, 0, 11, 8, 3, 4, 13, 7, 5, 15, 14, 1, 9],
     #v[12, 5, 1, 15, 14, 13, 4, 10, 0, 7, 6, 3, 9, 2, 8, 11],
     #v[13, 11, 7, 14, 12, 1, 3, 9, 5, 0, 15, 4, 8, 6, 2, 10],
     #v[6, 15, 14, 9, 11, 3, 0, 8, 12, 2, 13, 7, 1, 4, 10, 5],
     #v[10, 2, 8, 4, 7, 6, 1, 5, 15, 11, 9, 14, 3, 12, 13, 0]]

/-- `QUAD[g] = (ia, ib, ic, id)` (R121): columns for `g` in 0..3, diagonals for `g` in 4..7. -/
def QUAD : Vector (Fin 16 × Fin 16 × Fin 16 × Fin 16) 8 :=
  #v[(0, 4, 8, 12), (1, 5, 9, 13), (2, 6, 10, 14), (3, 7, 11, 15),
     (0, 5, 10, 15), (1, 6, 11, 12), (2, 7, 8, 13), (3, 4, 9, 14)]

/-- The G indices of a round in the order they are issued (R124). -/
def gOrder : List (Fin 8) := [0, 1, 2, 3, 4, 5, 6, 7]

/-- The rounds of a compression in the order they run (R125, R139). -/
def roundOrder : List (Fin 10) := [0, 1, 2, 3, 4, 5, 6, 7, 8, 9]

end Sys2Proof.Machine
end

