-- ==== Sys2Proof/Machine/Operands.lean ====
section
/-! DEFINITION. Operand assembly: the block load of UPDATE and FINISH (R178), the operand checks of INIT (R151, R152) and
its word `h0` (R153), the words a G call reads (R122, R123), the counter increments (R171). -/

namespace Sys2Proof.Machine

/-- The bytes `B` of R178: `BLK[k]` below `keep`, zero from there on (R170). -/
def padBlock (keep : Nat) (b : Block) : Block :=
  Vector.ofFn fun k => if k.val < keep then b[k] else 0

/-- `m[i] = MemRead(BLK, 4i, 4)` (R53). -/
def blockWords (b : Block) : Words16 :=
  Vector.ofFn fun i => BitVec.ofNat 32 (memRead b (4 * i.val) 4)

/-- `LoadBlock(keep)` (R178): the words of the padded block. -/
def loadBlock (keep : Nat) (b : Block) : Words16 := blockWords (padBlock keep b)

/-- INIT's operands are a legal configuration (R151, R152): `nn` in 1..32 and `kk` in 0..32. -/
def configLegal (nn kk : BitVec 6) : Bool := nn ≠ 0 ∧ nn ≤ 32 ∧ kk ≤ 32

/-- `h0 = 0x01010000 ^ (kk << 8) ^ nn` (R153). -/
def h0 (nn kk : BitVec 6) : Word :=
  0x01010000 ^^^ (kk.zeroExtend 32 <<< 8) ^^^ nn.zeroExtend 32

/-- The initial hash state (R155): only `h[0]` depends on the parameters. -/
def initialH (nn kk : BitVec 6) : Words8 := IV.set 0 (IV[0] ^^^ h0 nn kk)

/-- The six operands of the G call of step word `(r, g)` (R91, R122, R123). `r` is below 10, so the document's
`r mod 10` is `r` (R125). -/
def gOperands (m v : Words16) (r : Fin 10) (g : Fin 8) : GIn :=
  let (ia, ib, ic, id) := QUAD[g]
  let row := SIGMA[r]
  { a := v[ia], b := v[ib], c := v[ic], d := v[id],
    m0 := m[row[2 * g.val]], m1 := m[row[2 * g.val + 1]] }

end Sys2Proof.Machine
end

