-- ==== Sys2Proof/Machine/Mixing.lean ====
section
/-! DEFINITION. mixing_primitive_g_pipeline: ADD32, XOR32, ROTR, G (R105 to R118). Run on their own, the three word
operations leave their result in the model's own `microResult` and G leaves its eight values in the G registers of R27
(assumption 7); a G call outside a compression emits nothing (R113). -/

namespace Sys2Proof.Machine

/-- R12, R105. -/
def addWords (x y : Word) : Word := x + y

/-- `add32(x, y, z) = add32(add32(x, y), z)` (R105). -/
def addWords3 (x y z : Word) : Word := addWords (addWords x y) z

/-- R106. -/
def xorWords (x y : Word) : Word := x ^^^ y

/-- `rotr32(x, n) = ((x >> n) | (x << (32 - n))) mod 2^32` (R12, R107). -/
def rotr32 (x : Word) (n : Nat) : Word := (x >>> n) ||| (x <<< (32 - n))

/-- `rotl32(x, n) = ((x << n) | (x >> (32 - n))) mod 2^32` (R12, R108). The unit never computes it. -/
def rotl32 (x : Word) (n : Nat) : Word := (x <<< n) ||| (x >>> (32 - n))

/-- The eight lines of G (R109), in their one order (R117); the result is `(a2, b2, c2, d2)`. -/
def mixG (i : GIn) : GRegs :=
  let a1 := addWords3 i.a i.b i.m0
  let d1 := rotr32 (xorWords i.d a1) 16
  let c1 := addWords i.c d1
  let b1 := rotr32 (xorWords i.b c1) 12
  let a2 := addWords3 a1 b1 i.m1
  let d2 := rotr32 (xorWords d1 a2) 8
  let c2 := addWords c1 d2
  let b2 := rotr32 (xorWords b1 c2) 7
  { a1, d1, c1, b1, a2, d2, c2, b2 }

/-- `Ginv` (R112), a law of the model's G; the unit does not compute it. -/
def mixGInv (a2 b2 c2 d2 m0 m1 : Word) : Word × Word × Word × Word :=
  let b1 := rotl32 b2 7 ^^^ c2
  let c1 := c2 - d2
  let d1 := rotl32 d2 8 ^^^ a2
  let a1 := a2 - b1 - m1
  let b := rotl32 b1 12 ^^^ c1
  let c := c1 - d1
  let d := rotl32 d1 16 ^^^ a1
  let a := a1 - b - m0
  (a, b, c, d)

/-- Leave the word result of a stand-alone micro-operation (assumption 7). -/
def setMicroResult (w : Word) (s : State) : State :=
  { s with scratch := { s.scratch with microResult := w } }

/-- ADD32 with two or three operands (R105). -/
def execAdd32 (x y : Word) (z : Option Word) (s : State) : Result :=
  match z with
  | none => .next (setMicroResult (addWords x y) s)
  | some z => .next (setMicroResult (addWords3 x y z) s)

/-- XOR32 (R106). -/
def execXor32 (x y : Word) (s : State) : Result := .next (setMicroResult (xorWords x y) s)

/-- ROTR (R107). -/
def execRotr (x : Word) (n : RotDist) (s : State) : Result := .next (setMicroResult (rotr32 x n.bits) s)

/-- G (R109): "G reads and writes no state ... other than the scratch registers of R27". -/
def execG (a b c d m0 m1 : Word) (s : State) : Result :=
  .next { s with scratch := { s.scratch with gregs := mixG { a, b, c, d, m0, m1 } } }

end Sys2Proof.Machine
end

