-- ==== Sys2Proof/Machine/Scheduler.lean ====
section
/-! DEFINITION. round_permutation_scheduler: GSTEP, ROUND, and the advance of the step word (R120 to R134). -/

namespace Sys2Proof.Machine

/-- `v[ia] <- x; v[ib] <- y; v[ic] <- z; v[id] <- w` (R123). -/
def writeQuad (v : Words16) (g : Fin 8) (x : GRegs) : Words16 :=
  let (ia, ib, ic, id) := QUAD[g]
  (((v.set ia x.a2).set ib x.b2).set ic x.c2).set id x.d2

/-- The working vector after step `(r, g)`: all four words are read before any is written (R111, R123). -/
def gstepV (m : Words16) (r : Fin 10) (v : Words16) (g : Fin 8) : Words16 :=
  writeQuad v g (mixG (gOperands m v r g))

/-- `GSTEP(r, g)` (R123): the G call of the step word, its `GSnap` event (R113), the step word in `r`, `g` (R28). -/
def gstepOp (r : Fin 10) (g : Fin 8) (s : State) : State :=
  let i := gOperands s.scratch.m s.scratch.v r g
  let x := mixG i
  emit (.gsnap s.blk r g i x)
    { s with scratch := { s.scratch with v := writeQuad s.scratch.v g x, gregs := x, r := r, g := g } }

/-- The snapshot before round `r` (R144). -/
def emitRoundPre (r : Fin 10) (s : State) : State := emit (.roundPre s.blk r s.scratch.v s.scratch.m) s

/-- The snapshot after round `r` (R144). -/
def emitRoundPost (r : Fin 10) (s : State) : State := emit (.roundPost s.blk r s.scratch.v s.scratch.m) s

/-- `ROUND(r)` (R124): the eight GSTEPs in order, between the two snapshots. -/
def roundOp (r : Fin 10) (s : State) : State :=
  emitRoundPost r (gOrder.foldl (fun s g => gstepOp r g s) (emitRoundPre r s))

/-- GSTEP (R123). -/
def execGstep (r : Fin 10) (g : Fin 8) (s : State) : Result := .next (gstepOp r g s)

/-- ROUND (R124). -/
def execRound (r : Fin 10) (s : State) : Result := .next (roundOp r s)

/-- The four G calls of one group evaluated side by side, all from the `v` at the start of the group, as an implementation
with `G_LANES = 4` does (R129, R131). Not used by any meaning. -/
def groupInLanes (m : Words16) (r : Fin 10) (gs : List (Fin 8)) (v : Words16) : Words16 :=
  gs.foldl (fun w g => writeQuad w g (mixG (gOperands m v r g))) v

end Sys2Proof.Machine
end

