-- ==== Sys2Proof/Machine/Compression.lean ====
section
/-! DEFINITION. The compression function F (R135 to R149): its five steps on State, and F as the pure function of
`(h, m, t, f)` that R142 says it is. -/

namespace Sys2Proof.Machine

/-- Steps 1 to 3 (R136, R137, R138): `v` from `h` and `IV`, the counter into words 12 and 13, the flag into word 14. -/
def buildV (h : Words8) (t : BitVec 64) (final : Bool) : Words16 :=
  let v : Words16 := h ++ IV
  let v := v.set 12 (v[12] ^^^ tLow t)
  let v := v.set 13 (v[13] ^^^ tHigh t)
  if final then v.set 14 (v[14] ^^^ 0xFFFFFFFF) else v

/-- Step 5 (R140): `h'[i] = h[i] ^ v[i] ^ v[8+i]`. -/
def foldBack (h : Words8) (v : Words16) : Words8 :=
  Vector.ofFn fun i => h[i] ^^^ v[i.val] ^^^ v[8 + i.val]

/-- The working vector after one round (R124). -/
def roundV (m v : Words16) (r : Fin 10) : Words16 := gOrder.foldl (gstepV m r) v

/-- The working vector after the ten rounds (R139). -/
def roundsV (m v : Words16) : Words16 := roundOrder.foldl (roundV m) v

/-- `F(h, m, t, f)` (R141, R142). -/
def F (h : Words8) (m : Words16) (t : BitVec 64) (final : Bool) : Words8 :=
  foldBack h (roundsV m (buildV h t final))

/-- Steps 1 to 3 on the state; the step word starts at 0 (R126). -/
def enterF (final : Bool) (s : State) : State :=
  { s with scratch := { s.scratch with v := buildV s.h s.t final, f := final, r := 0, g := 0 } }

/-- Step 4 on the state (R139). -/
def runRounds (s : State) : State := roundOrder.foldl (fun s r => roundOp r s) s

/-- Step 5 on the state: `h <- h'` (R140). -/
def foldH (s : State) : State := { s with h := foldBack s.h s.scratch.v }

/-- F in one piece (R141). -/
def fOp (final : Bool) (s : State) : State := foldH (runRounds (enterF final s))

/-- F (R135). Its result goes to `h`, which is "mutated only by `F`" (R21; assumption 7). -/
def execF (final : Bool) (s : State) : Result := .next (fOp final s)

end Sys2Proof.Machine
end

