-- ==== Sys2Proof/Machine/InitBuilder.lean ====
section
/-! DEFINITION. blake2s_init_state_builder: the INIT command (R150 to R164). -/

namespace Sys2Proof.Machine

/-- What a successful INIT writes (R158): a new session, whatever the phase was (R159). -/
def newSession (nn kk : BitVec 6) (s : State) : State :=
  { s with nn := nn, kk := kk, h := initialH nn kk, t := 0, blk := 0, dvalid := false, phase := .absorbing }

/-- INIT (R158). -/
def execInit (nn kk : BitVec 6) (s : State) : Result :=
  if configLegal nn kk then .next (respondOk (newSession nn kk s)) else .next (raiseError .config s)

end Sys2Proof.Machine
end

