-- ==== Sys2Proof/Machine/Serializer.lean ====
section
/-! DEFINITION. digest_truncator_serializer: the DIGEST command (R190 to R199). -/

namespace Sys2Proof.Machine

/-- Byte `k` of the untruncated serialization: `h[k div 4][8*(k mod 4)+7 : 8*(k mod 4)]` (R59). -/
def digestByte (h : Words8) (k : Fin 32) : Byte := wordByte h[k.val / 4] (k.val % 4)

/-- What DIGEST writes to `DOUT` (R192): `nn` digest bytes, then zeros (R194, R195). -/
def digestBytes (h : Words8) (nn : BitVec 6) : DigestBuffer :=
  Vector.ofFn fun k => if k.val < nn.toNat then digestByte h k else 0

/-- DIGEST (R192). -/
def execDigest (s : State) : Result :=
  if s.phase = .finalized then
    .next (respondOk { s with dout := digestBytes s.h s.nn, dlen := s.nn, dvalid := true })
  else .next (raiseError .state s)

end Sys2Proof.Machine
end

