-- ==== Sys2Proof/Machine/Sequencer.lean ====
section
/-! DEFINITION. The block sequencer: NOP, UPDATE, FINISH, TRACE, the reserved opcodes, the host procedure HASH (R165 to
R187, R204), and the start and end of a compression that the atomic commands and the step-by-step scheduler share. -/

namespace Sys2Proof.Machine

/-- The start of an UPDATE or FINISH whose phase check passed: the block is sampled and padded (R64, R178), the byte count
is added (R171), steps 1 to 3 of F are done, and the unit is busy (R32). -/
def beginCompression (keep : Nat) (final : Bool) (s : State) : State :=
  enterF final
    { s with ready := false, t := add64 s.t (BitVec.ofNat 64 keep),
             scratch := { s.scratch with m := loadBlock keep s.block } }

/-- The end of an UPDATE (`f = 0`) or FINISH (`f = 1`) after its 80 step words: the fold (R140), `blk` (R177), the phase
(R169), the response, ready again (R75); the scratch registers stop meaning anything (R143). -/
def endCompression (s : State) : State :=
  releaseScratch (respondOk
    { foldH s with blk := s.blk + 1, ready := true, phase := if s.scratch.f then .finalized else s.phase })

/-- The whole compression of a command: begin, the ten rounds, end. -/
def absorb (keep : Nat) (final : Bool) (s : State) : State :=
  endCompression (runRounds (beginCompression keep final s))

/-- NOP (R166). -/
def execNop (s : State) : Result := .next (respondOk s)

/-- TRACE (R176). -/
def execTrace (en : Bool) (s : State) : Result := .next (respondOk { s with traceEn := en })

/-- UPDATE (R167): the full block, 64 bytes counted, `f = 0`. -/
def execUpdate (s : State) : Result :=
  if s.phase = .absorbing then .next (absorb 64 false s) else .next (raiseError .state s)

/-- FINISH (R169): `len` bytes kept and counted, `f = 1`. With `len` above 64 there is no FINISH but a reserved word, which
raises IllegalCommand whatever the phase (R83 item 5, R204, R207). -/
def execFinish (len : BitVec 7) (s : State) : Result :=
  if 64#7 < len then .next (raiseError .illegal s)
  else if s.phase = .absorbing then .next (absorb len.toNat true s)
  else .next (raiseError .state s)

/-- A word with `op = 6` (R83, R204), whatever its upper bits. -/
def execReservedOp6 (_hi : BitVec 13) (s : State) : Result := .next (raiseError .illegal s)

/-- A word with `op = 7` (R83, R204), whatever its upper bits. -/
def execReservedOp7 (_hi : BitVec 13) (s : State) : Result := .next (raiseError .illegal s)

/-- The number of blocks of a message of `L` bytes; the empty message has one (R173, R181). -/
def hashBlocks (L : Nat) : Nat := max 1 ((L + 63) / 64)

/-- The bytes of block `j` of a message (R51). -/
def messageBlock (msg : List Byte) (j : Nat) : List Byte := (msg.drop (64 * j)).take 64

/-- The non-final blocks of HASH: fill `BLK`, UPDATE, for each listed block (R181). -/
def absorbBlocks (msg : List Byte) : List Nat → State → Result
  | [], s => .next s
  | j :: js, s => andThen (execUpdate (fillBlk (messageBlock msg j) s)) (absorbBlocks msg js)

/-- The byte count of the final block: `rem = L - 64 (nb - 1)` (R181). -/
def hashRem (msg : List Byte) : BitVec 7 := BitVec.ofNat 7 (msg.length - 64 * (hashBlocks msg.length - 1))

/-- HASH (R181): INIT, one UPDATE per block but the last, FINISH, DIGEST, issued one after another as the macro of R95
(assumption 8: also after an INIT that did not respond OK). -/
def execHash (nn kk : BitVec 6) (msg : List Byte) (s : State) : Result :=
  let last := hashBlocks msg.length - 1
  andThen (execInit nn kk s) fun s =>
  andThen (absorbBlocks msg (List.range last) s) fun s =>
  andThen (execFinish (hashRem msg) (fillBlk (messageBlock msg last) s)) execDigest

/-- The host actions that HASH stands for (R95, R181). -/
def hashActions (nn kk : BitVec 6) (msg : List Byte) : List HostAction :=
  let last := hashBlocks msg.length - 1
  .command (initWord nn kk) ::
    (List.range last).flatMap (fun j => [.fill (messageBlock msg j), .command 0x0002]) ++
    [.fill (messageBlock msg last), .command (finishWord (hashRem msg)), .command 0x0004]

end Sys2Proof.Machine
end

