-- ==== Sys2Proof/Machine/Dispatch.lean ====
section
/-! DEFINITION. Which meaning each instruction has. -/

namespace Sys2Proof.Machine

def exec (i : Instr) (s : State) : Host.Outcome State Fault Refusal :=
  match i with
  -- commands
  | .nop => Sys2Proof.Machine.execNop s
  | .init nn kk => Sys2Proof.Machine.execInit nn kk s
  | .update => Sys2Proof.Machine.execUpdate s
  | .finish len => Sys2Proof.Machine.execFinish len s
  | .digest => Sys2Proof.Machine.execDigest s
  | .trace en => Sys2Proof.Machine.execTrace en s
  -- reserved opcodes
  | .reservedOp6 hi => Sys2Proof.Machine.execReservedOp6 hi s
  | .reservedOp7 hi => Sys2Proof.Machine.execReservedOp7 hi s
  -- micro-operations
  | .gstep r g => Sys2Proof.Machine.execGstep r g s
  | .add32 x y z => Sys2Proof.Machine.execAdd32 x y z s
  | .xor32 x y => Sys2Proof.Machine.execXor32 x y s
  | .rotr x n => Sys2Proof.Machine.execRotr x n s
  | .g a b c d m0 m1 => Sys2Proof.Machine.execG a b c d m0 m1 s
  | .round r => Sys2Proof.Machine.execRound r s
  | .f final => Sys2Proof.Machine.execF final s
  -- the pin and the host procedure
  | .reset => Sys2Proof.Machine.execReset s
  | .hash nn kk msg => Sys2Proof.Machine.execHash nn kk msg s

end Sys2Proof.Machine
end

