-- ==== Sys2Proof/Machine/Busy.lean ====
section
/-! DEFINITION. A unit inside a compression (`ready = 0`), one step word at a time (R31, R126; assumption 6), and the
acceptance of a command word (R82, R204, R207). -/

namespace Sys2Proof.Machine

/-- Before the step word `(r, g)`: the snapshot of the round that begins with it (R144). -/
def beforeStepWord (s : State) : State :=
  if s.scratch.g = 0 then emitRoundPre s.scratch.r s else s

/-- "if s < 79 then s <- s + 1" (R126): `g` counts, and carries into `r` after 7. -/
def advanceStepWord (s : State) : State :=
  { s with scratch := { s.scratch with
      g := s.scratch.g + 1, r := if s.scratch.g = 7 then s.scratch.r + 1 else s.scratch.r } }

/-- After the step word `(r, g)`: the snapshot of the round that ends with it, then the next step word or, after 79, the
end of the command (R126). -/
def afterStepWord (s : State) : State :=
  let s' := if s.scratch.g = 7 then emitRoundPost s.scratch.r s else s
  if s.scratch.r = 9 ∧ s.scratch.g = 7 then endCompression s' else advanceStepWord s'

/-- One step of a busy unit: the GSTEP of the step word held in `r`, `g`. -/
def busyStep (s : State) : Result :=
  andThen (exec (.gstep s.scratch.r s.scratch.g) (beforeStepWord s)) fun t => .next (afterStepWord t)

/-- Execute an accepted command word (R207): the encoding is checked first, a word that decodes to Illegal raises
IllegalCommand in every phase (R82, R204). -/
def execWord (w : BitVec 16) (s : State) : Result :=
  match decode w with
  | .ok i => exec i s
  | .error _ => .next (raiseError .illegal s)

/-- Put step word `(r, g)` into the scheduler of a busy unit: the next step runs its GSTEP. -/
def issueStepWord (r : Fin 10) (g : Fin 8) (s : State) : State :=
  { s with ready := false, host := [], scratch := { s.scratch with r := r, g := g } }

/-- Present a command word to a unit that is ready: the next step accepts it (R75). -/
def presentWord (w : BitVec 16) (s : State) : State :=
  { s with ready := true, host := .command w :: s.host }

end Sys2Proof.Machine
end

