-- ==== Sys2Proof/Machine/Step.lean ====
section
/-! DEFINITION. One step: the next action of the host, or the next step word of a busy unit, or waiting. -/

namespace Sys2Proof.Machine

/-- One step.
* Reset works whatever the unit is doing (R101).
* The host may write `BLK` at any time (R64).
* A command is accepted only when the unit is ready (R75); presented earlier it is held while the running compression goes
  on (R100, R235).
* With nothing presented a ready unit waits and keeps all its state (R222). -/
def step (s : State) : Host.Outcome State Fault Refusal :=
  match s.host with
  | .reset :: rest => exec .reset { s with host := rest }
  | .fill bytes :: rest => .next (fillBlk bytes { s with host := rest })
  | .command w :: rest => if s.ready then execWord w { s with host := rest } else busyStep s
  | [] => if s.ready then .next s else busyStep s

/-- The state whose next step runs the instruction of a table row's word: a command word is presented to the ready unit; a
step word (at most 8 bits) is put into the scheduler of a busy unit. -/
def State.withFetchWord (s : State) (nbits w : Nat) : State :=
  if nbits ≤ 8 then
    match decodeStep (BitVec.ofNat 7 w) with
    | some (.gstep r g) => issueStepWord r g s
    | _ => s
  else presentWord (BitVec.ofNat 16 w) s

end Sys2Proof.Machine
end

