-- ==== Sys2Proof/Machine/Assembler.lean ====
section
/-! DEFINITION. The assembler statements and pseudo-instructions (R94, R95) as host actions and assertions, and the
listing format of trace words (R96). Text only: nothing of the unit. -/

namespace Sys2Proof.Machine

/-- The statements of R94 and R95. -/
inductive Statement where
  | nop
  | init (nn kk : BitVec 6)
  | initUnkeyed (nn : BitVec 6)
  /-- `UPDATE hex128`: the 64 bytes of the string. -/
  | update (bytes : Block)
  /-- `FINISH len, hexstring`; at most 64 bytes of the string count. -/
  | finish (len : BitVec 7) (bytes : List Byte)
  | finishAsIs (len : BitVec 7)
  | digest
  | trace (en : Bool)
  | word (x : BitVec 16)
  | reset
  | hash (nn kk : BitVec 6) (msg : List Byte)
  | hashUnkeyed (nn : BitVec 6) (msg : List Byte)
  | expect (r : Resp)
  | expectDigest (bytes : List Byte)
  deriving DecidableEq, Repr

/-- A string's bytes with the rest of `BLK` filled with zero by the assembler (R94). -/
def padString (bytes : List Byte) : List Byte :=
  bytes.take 64 ++ List.replicate (64 - (bytes.take 64).length) 0

/-- What the host does for a statement (R94, R95). -/
def Statement.assemble : Statement → List HostAction
  | .nop => [.command 0x0000]
  | .init nn kk => [.command (initWord nn kk)]
  | .initUnkeyed nn => [.command (initWord nn 0)]
  | .update bytes => [.fill bytes.toList, .command 0x0002]
  | .finish len bytes => [.fill (padString bytes), .command (finishWord len)]
  | .finishAsIs len => [.command (finishWord len)]
  | .digest => [.command 0x0004]
  | .trace en => [.command (traceWord en)]
  | .word x => [.command x]
  | .reset => [.reset]
  | .hash nn kk msg => hashActions nn kk msg
  | .hashUnkeyed nn msg => hashActions nn 0 msg
  | .expect _ => []
  | .expectDigest _ => []

/-- What a statement asserts of the state it is reached in (R95); only `EXPECT` and `EXPECT_DIGEST` assert anything. -/
def Statement.asserts (st : Statement) (s : State) : Bool :=
  match st with
  | .expect r => s.resp = r
  | .expectDigest bytes => s.dvalid ∧ s.dlen.toNat = bytes.length ∧ s.dout.toList.take s.dlen.toNat = bytes
  | .nop | .init _ _ | .initUnkeyed _ | .update _ | .finish _ _ | .finishAsIs _ | .digest | .trace _ | .word _ | .reset
  | .hash _ _ _ | .hashUnkeyed _ _ => true

/-- An upper-case hexadecimal digit. -/
def hexDigit (d : BitVec 4) : Char := Char.ofNat (if d.toNat < 10 then 48 + d.toNat else 55 + d.toNat)

/-- A 32-bit trace word as eight upper-case hexadecimal digits (R96). -/
def hexWord (w : Word) : String :=
  String.ofList ((List.range 8).map fun i => hexDigit (w.extractLsb' (28 - 4 * i) 4))

end Sys2Proof.Machine
end

