-- ==== Sys2Proof/Machine/Signal.lean ====
section
/-! DEFINITION. The signal level: ports (R99), handshake (R100), reset pin (R101, R231), trace ports (R102), port packing
(R52, R60). A layer around the transaction level: no rule outside depends on it (R4). One `cycle` is one rising edge of
`clk`; times are counted with the open parameter `LAT` (R247; assumption 11), and the cycles on which trace events show on
their ports are free values, within R102 as far as `LAT` leaves room for it (assumption 14). -/

namespace Sys2Proof.Machine

/-- The input ports (R99). -/
structure PortsIn where
  rstN : Bool
  cmdValid : Bool
  cmd : BitVec 16
  block : BitVec 512
  deriving DecidableEq, Repr

/-- The trace ports but for `trace_valid_o`, in a cycle in which that is 1 (R102); `none` where R102 calls a port not
meaningful for the kind of event. -/
structure TracePorts where
  kind : BitVec 2
  blk : BitVec 64
  round : BitVec 4
  g : Option (BitVec 3)
  v : Option (BitVec 512)
  m : Option (BitVec 512)
  gsnap : Option (BitVec 448)
  deriving DecidableEq, Repr

/-- The output ports (R99). -/
structure PortsOut where
  ready : Bool
  respValid : Bool
  resp : BitVec 2
  fault : BitVec 3
  phase : BitVec 2
  nn : BitVec 6
  kk : BitVec 6
  traceEn : Bool
  digest : BitVec 256
  digestLen : BitVec 6
  digestValid : Bool
  /-- `trace_valid_o` (R102). -/
  traceValid : Bool
  /-- The other trace ports, for each event on show: one while `trace_valid_o = 1` and none while it is 0, where the spec
  gives them no meaning. More than one only with a response that comes before every event has had a cycle of its own
  (assumption 14). -/
  trace : List TracePorts
  deriving DecidableEq, Repr

/-- A command that has been accepted and not answered: its word, the block sampled with it, the cycles left until its
response, the number of its trace events that have shown on the trace ports. -/
structure Running where
  word : BitVec 16
  sampled : Block
  left : Nat
  shown : Nat
  deriving DecidableEq, Repr

/-- The unit at the signal level: the architectural state as the ports show it, the command under way, the response
pulse, and what is on the trace ports in this cycle: an event or none (several: see `PortsOut.trace`), oldest first. -/
structure SigState where
  unit : State
  running : Option Running
  respValid : Bool
  tracing : List TraceEvent
  deriving DecidableEq, Repr

/-- The signal level right after reset (R101): nothing accepted, no pulse. -/
def SigState.reset : SigState := { unit := State.reset, running := none, respValid := false, tracing := [] }

/-- `BLK[k] = block_i[8k+7:8k]` (R52). -/
def unpackBlock (p : BitVec 512) : Block := Vector.ofFn fun k => p.extractLsb' (8 * k.val) 8

/-- `DOUT[k] = digest_o[8k+7:8k]` (R60). -/
def packDigest (d : DigestBuffer) : BitVec 256 := BitVec.ofNat 256 (leNat d.toList)

/-- Word number `k` at bits `[32k+31:32k]` (R102). -/
def packWords (n : Nat) (ws : List Word) : BitVec n :=
  BitVec.ofNat n (ws.foldr (fun w acc => w.toNat + 2 ^ 32 * acc) 0)

/-- The fourteen words of a `GSnap` in port order (R102). -/
def gsnapWords (i : GIn) (x : GRegs) : List Word :=
  [i.a, i.b, i.c, i.d, i.m0, i.m1, x.a1, x.d1, x.c1, x.b1, x.a2, x.b2, x.c2, x.d2]

/-- What the trace ports show for an event, in the one cycle in which `trace_valid_o = 1` for it (R102). -/
def TraceEvent.ports : TraceEvent → TracePorts
  | .roundPre blk r v m =>
    { kind := 0, blk := blk, round := BitVec.ofNat 4 r.val, g := none,
      v := some (packWords 512 v.toList), m := some (packWords 512 m.toList), gsnap := none }
  | .gsnap blk r g i x =>
    { kind := 1, blk := blk, round := BitVec.ofNat 4 r.val, g := some (BitVec.ofNat 3 g.val),
      v := none, m := none, gsnap := some (packWords 448 (gsnapWords i x)) }
  | .roundPost blk r v m =>
    { kind := 2, blk := blk, round := BitVec.ofNat 4 r.val, g := none,
      v := some (packWords 512 v.toList), m := some (packWords 512 m.toList), gsnap := none }

/-- The output ports (R37, R99). `ready_o` is 0 exactly while a command is under way (R32, R100). -/
def SigState.ports (x : SigState) : PortsOut :=
  { ready := x.running.isNone, respValid := x.respValid, resp := x.unit.resp.code, fault := x.unit.fault,
    phase := x.unit.phase.code, nn := x.unit.nn, kk := x.unit.kk, traceEn := x.unit.traceEn,
    digest := packDigest x.unit.dout, digestLen := x.unit.dlen, digestValid := x.unit.dvalid,
    traceValid := !x.tracing.isEmpty, trace := x.tracing.map TraceEvent.ports }

/-- The trace events of a command, in the order of R215. -/
def commandEvents (w : BitVec 16) (sampled : Block) (s : State) : List TraceEvent :=
  match execWord w { s with block := sampled } with
  | .next t => t.trace.drop s.trace.length
  | .fault _ => []
  | .refused _ => []

/-- What is on the trace ports in a cycle of a running command, `c.left` cycles before its response: the first event that
has not shown yet, when it must show now for all to be out by the response (R102) or when the free value says so. With the
response comes all that has not shown: no event is later (R102). That is one event at most wherever `LAT`, which has no
bound (R247), leaves a cycle for each (assumption 14). -/
def eventsNow (c : Running) (s : State) : List TraceEvent :=
  let waiting := (commandEvents c.word c.sampled s).drop c.shown
  if c.left = 0 then waiting
  else if c.left < waiting.length ∨ Config.traceShows s.free c.left = true then waiting.take 1
  else []

/-- A command ends: all its updates, its response pulse and `ready` appear together (R100). -/
def completeCommand (c : Running) (x : SigState) : Host.Outcome SigState Fault Refusal :=
  match execWord c.word { x.unit with block := c.sampled } with
  | .next s => .next { unit := s, running := none, respValid := true, tracing := eventsNow c x.unit }
  | .fault r => .fault r
  | .refused r => .refused r

/-- A cycle of a running command, `c.left` cycles before its response: it waits (R100), or with none left it ends. -/
def runCycle (c : Running) (x : SigState) : Host.Outcome SigState Fault Refusal :=
  if c.left = 0 then completeCommand c x
  else
    let evs := eventsNow c x.unit
    .next { x with running := some { c with shown := c.shown + evs.length }, respValid := false, tracing := evs }

/-- The events of the command under way that have shown on the trace ports (R231). -/
def eventsShown (x : SigState) : List TraceEvent :=
  match x.running with
  | none => []
  | some c => (commandEvents c.word c.sampled x.unit).take c.shown

/-- Reset at a rising edge: the command under way is dropped without a response; of its events only those that have shown
were ever emitted (R101, R231). -/
def resetEdge (x : SigState) : Host.Outcome SigState Fault Refusal :=
  match exec .reset { x.unit with trace := x.unit.trace ++ eventsShown x } with
  | .next s => .next { unit := s, running := none, respValid := false, tracing := [] }
  | .fault r => .fault r
  | .refused r => .refused r

/-- One rising edge of `clk` (R100, R101). A command is accepted when `cmd_valid_i` and `ready_o` are both 1; `cmd_i` and
`block_i` are sampled at that edge and no other; `ready_o` is then 0 for `LAT` cycles. While `ready_o = 0` the command ports
are not looked at. -/
def cycle (p : PortsIn) (x : SigState) : Host.Outcome SigState Fault Refusal :=
  if p.rstN = false then resetEdge x
  else
    match x.running with
    | some c => runCycle { c with left := c.left - 1 } x
    | none =>
      if p.cmdValid then
        runCycle { word := p.cmd, sampled := unpackBlock p.block, left := Config.lat (opField p.cmd) x.unit.traceEn, shown := 0 }
          x
      else .next { x with respValid := false, tracing := [] }

/-- Consecutive rising edges. -/
def cycles : List PortsIn → SigState → Host.Outcome SigState Fault Refusal
  | [], x => .next x
  | p :: ps, x =>
    match cycle p x with
    | .next y => cycles ps y
    | .fault r => .fault r
    | .refused r => .refused r

/-- What an observer of the trace ports records over consecutive rising edges: what every cycle in which
`trace_valid_o = 1` shows, oldest first (R102). -/
def eventsObserved : List PortsIn → SigState → List TraceEvent
  | [], _ => []
  | p :: ps, x =>
    match cycle p x with
    | .next y => y.tracing ++ eventsObserved ps y
    | .fault _ => []
    | .refused _ => []

end Sys2Proof.Machine
end

