-- ==== Sys2Proof/Safety.lean ====
section
/-! DEFINITION. What counts as a safe run, the invariants of R45, and the reference functions that statements compare the
machine with: the transition table of R179, the reserved words of R83, the trace keys of R145, the hash of a message. -/

namespace Sys2Proof.Machine

/-- "A model may define 'the run has faulted' as FAULT != 0" (R225): no error was recorded since reset. -/
def State.noErrorRecorded (s : State) : Prop := s.fault = 0

/-- The invariants that hold between any two steps (R45). Items 1 and 2 of R45 are in the types, item 6 is about two
states (`Obligations.FaultBitsStayUntilReset`). The clauses about `ready = false` speak of a unit inside a compression. -/
structure State.Inv (s : State) : Prop where
  /-- R45 item 3. -/
  config : s.phase ≠ .init → configLegal s.nn s.kk = true
  /-- R45 item 4, with the zero fill of R195. -/
  digest : s.dvalid = true →
    s.phase = .finalized ∧ s.ready = true ∧ s.dlen = s.nn ∧ s.dout = digestBytes s.h s.nn
  /-- R45 item 5, modulo 2^64 and so without its bound on the number of blocks. -/
  counter : s.phase = .absorbing → s.ready = true → s.t = 64 * s.blk
  /-- A compression runs in phase ABSORBING only (R31, R167, R169), with its bytes already counted (R171). -/
  busy : s.ready = false → s.phase = .absorbing ∧ (s.scratch.f = false → s.t = 64 * s.blk + 64)
  /-- An error response has its sticky bit set (R201, R205). -/
  recorded : ∀ e : CmdError, s.resp = e.resp → s.fault &&& e.faultMask = e.faultMask

/-- What holds in every cycle at the signal level. -/
structure SigState.Inv (x : SigState) : Prop where
  /-- Between commands the unit is ready and R45 holds of its state. -/
  unit : x.unit.ready = true ∧ x.unit.Inv
  /-- The response pulse comes with `ready_o = 1` (R100). -/
  pulse : x.respValid = true → x.running = none
  /-- No more events of a command have shown than it has; and if its latency leaves a cycle for each of them, there is one
  to come for every event that has not shown, none later than the response (R102). -/
  events : ∀ c, x.running = some c →
    let evs := commandEvents c.word c.sampled x.unit
    c.shown ≤ evs.length ∧
      (evs.length ≤ Config.lat (opField c.word) x.unit.traceEn + 1 → evs.length ≤ c.shown + c.left)
  /-- `trace_valid_o` is for one event a cycle, but for what is left over in the cycle of a response (R102). -/
  single : x.respValid = false → x.tracing.length ≤ 1
  /-- "With `TRACE_EN = 0`, `trace_valid_o` stays 0" (R102). -/
  quiet : x.unit.traceEn = false → x.tracing = []

/-- The transition table: response and phase after a command, from the phase before (R179). -/
def transition (i : Instr) (p : Phase) : Resp × Phase :=
  match i, p with
  | .nop, p => (.ok, p)
  | .trace _, p => (.ok, p)
  | .init nn kk, p => if 1 ≤ nn.toNat ∧ nn.toNat ≤ 32 ∧ kk.toNat ≤ 32 then (.ok, .absorbing) else (.configError, p)
  | .update, .absorbing => (.ok, .absorbing)
  | .update, p => (.stateError, p)
  | .finish len, .absorbing => if len.toNat ≤ 64 then (.ok, .finalized) else (.illegalCommand, .absorbing)
  | .finish len, p => if len.toNat ≤ 64 then (.stateError, p) else (.illegalCommand, p)
  | .digest, .finalized => (.ok, .finalized)
  | .digest, p => (.stateError, p)
  | _, p => (.illegalCommand, p)

/-- The reserved command words, item by item (R83); `op` is `w mod 8`. -/
def reservedWord (w : BitVec 16) : Prop :=
  (w.toNat % 8 = 6 ∨ w.toNat % 8 = 7) ∨
  ((w.toNat % 8 = 0 ∨ w.toNat % 8 = 2 ∨ w.toNat % 8 = 4) ∧ w.toNat / 8 ≠ 0) ∨
  (w.toNat % 8 = 1 ∧ w.toNat / 2 ^ 15 = 1) ∨
  (w.toNat % 8 = 3 ∧ w.toNat / 2 ^ 10 ≠ 0) ∨
  (w.toNat % 8 = 3 ∧ w.toNat / 2 ^ 10 = 0 ∧ 65 ≤ w.toNat / 8 ∧ w.toNat / 8 ≤ 127) ∨
  (w.toNat % 8 = 5 ∧ w.toNat / 2 ^ 4 ≠ 0)

/-- The keys of the 100 events of one compression, in order (R145): kind, `blk`, `r`, and `g` for a `GSnap`. -/
def compressionKeys (blk : BitVec 64) : List (BitVec 2 × BitVec 64 × BitVec 4 × Option (BitVec 3)) :=
  (List.range 10).flatMap fun r =>
    (0, blk, BitVec.ofNat 4 r, none) ::
      (List.range 8).map (fun g => (1, blk, BitVec.ofNat 4 r, some (BitVec.ofNat 3 g))) ++
      [(2, blk, BitVec.ofNat 4 r, none)]

/-- The key of an event, as the trace ports show it (R102, R215). -/
def TraceEvent.key (e : TraceEvent) : BitVec 2 × BitVec 64 × BitVec 4 × Option (BitVec 3) :=
  (e.ports.kind, e.ports.blk, e.ports.round, e.ports.g)

/-- Run instructions one after another. -/
def execAll : List Instr → State → Result
  | [], s => .next s
  | i :: is, s => andThen (exec i s) (execAll is)

/-- The state with tracing off and no event recorded: what R216 compares. -/
def State.untraced (s : State) : State := { s with traceEn := false, trace := [] }

/-- Bytes as a block, zero from their end on (R170). -/
def zeroPadded (bytes : List Byte) : Block := Vector.ofFn fun k => bytes.getD k.val 0

/-- The hash state after the non-final blocks `0 .. n-1` of a message: block `j` is compressed with the counter at
`64 (j+1)` and the flag 0 (R167, R171). -/
def chainBlocks (msg : List Byte) : Nat → Words8 → Words8
  | 0, h => h
  | n + 1, h =>
    F (chainBlocks msg n h) (blockWords (zeroPadded (messageBlock msg n))) (BitVec.ofNat 64 (64 * (n + 1))) false

/-- The final hash state of a whole message (R169, R181): the last block is compressed with the counter at the message's
length and the flag 1. -/
def messageH (nn kk : BitVec 6) (msg : List Byte) : Words8 :=
  let last := hashBlocks msg.length - 1
  F (chainBlocks msg last (initialH nn kk)) (blockWords (zeroPadded (messageBlock msg last)))
    (BitVec.ofNat 64 msg.length) true

end Sys2Proof.Machine
end

