-- ==== Sys2Proof/Certificates/Slice0/Obligations.lean ====
section
/-! DEFINITION. The statements for the provers. Each docstring names the rules of spec/ it formalises; where a clause rests
on a choice of the model, it names the assumption. -/

open Sys2Proof Sys2Proof.Machine

/-! ### Encoding -/

/-- Every command instruction has a word (R76 to R81, R83) and the decoder (R82) reads it back whole. -/
def Obligations.DecodeOfEncodeIsIdentity : Prop :=
  ∀ i : Instr, i.wellFormed = true → i.isCommand = true → ∃ w, encode i = some w ∧ decode w = .ok i

/-- A word that decodes is the one word of its instruction (R82, R83): no two words mean the same. -/
def Obligations.EncodeOfDecodeIsIdentity : Prop :=
  ∀ (w : BitVec 16) (i : Instr), decode w = .ok i →
    encode i = some w ∧ i.wellFormed = true ∧ i.isCommand = true

/-- The step word is `8 r + g` (R90, R91); step words 80 to 127 name nothing (R92). -/
def Obligations.StepWordsNameTheSteps : Prop :=
  (∀ (r : Fin 10) (g : Fin 8), (encodeStep r g).toNat = 8 * r.val + g.val ∧
    decodeStep (encodeStep r g) = some (.gstep r g)) ∧
  ∀ s : BitVec 7, 80 ≤ s.toNat → decodeStep s = none

/-- The field formulas of R79, R80, R81, and words written out in R78 to R81 and 95_test_vectors.md section 8 decode to
the instructions they stand for there. -/
def Obligations.SpecWordsDecode : Prop :=
  (∀ nn kk : BitVec 6, (initWord nn kk).toNat = 1 + 8 * nn.toNat + 512 * kk.toNat) ∧
  (∀ len : BitVec 7, (finishWord len).toNat = 3 + 8 * len.toNat) ∧
  (([(0x0000, .nop), (0x0101, .init 32 0), (0x20E1, .init 28 16), (0x4301, .init 32 33), (0x7FF9, .init 63 63),
      (0x0002, .update), (0x0003, .finish 0), (0x001B, .finish 3), (0x0203, .finish 64), (0x0004, .digest),
      (0x0005, .trace false), (0x000D, .trace true)] : List (BitVec 16 × Instr)).all
    fun p => decode p.1 = .ok p.2) = true ∧
  ([0x0008, 0x8000, 0x8101, 0xFFF9, 0x000A, 0x020B, 0x03FB, 0x0403, 0x000C, 0x0015].all
    fun w => (decode w).toOption = none) = true

/-- R204: IllegalCommand is raised exactly for the reserved words (R83), in every phase alike, with the effect of R205. -/
def Obligations.IllegalCommandExactlyOnReservedWords : Prop :=
  ∀ (s : State) (w : BitVec 16) (rest : List HostAction), s.host = .command w :: rest → s.ready = true →
    (reservedWord w → step s = .next { s with host := rest, resp := .illegalCommand, fault := s.fault ||| 0b100 }) ∧
    (¬ reservedWord w → ∃ t, step s = .next t ∧ t.resp ≠ .illegalCommand)

/-! ### The step -/

/-- A presented word that decodes runs its instruction (R75, R207), with the host's list moved on; `withFetchWord` presents
a word. The list of host actions is the model's own (assumption 4). -/
def Obligations.StepRunsDecodedCommand : Prop :=
  ∀ (s : State) (w : BitVec 16) (i : Instr), decode w = .ok i →
    (∀ rest, s.host = .command w :: rest → s.ready = true → step s = exec i { s with host := rest }) ∧
    step (s.withFetchWord 16 w.toNat) = exec i { s with ready := true }

/-- A busy unit runs the GSTEP of the step word it holds: before it the snapshot if the round begins, after it the
snapshot if the round ends, then the next step word (R126, R144, R145). That a busy unit can be a state of the model is its
own choice (assumption 6). -/
def Obligations.BusyStepRunsItsStepWord : Prop :=
  ∀ s : State, s.ready = false → (s.host = [] ∨ ∃ w rest, s.host = .command w :: rest) →
    let r := s.scratch.r
    let g := s.scratch.g
    let post := fun (t : State) => { t with
      trace := if g = 7 ∧ s.traceEn = true then t.trace ++ [.roundPost s.blk r t.scratch.v t.scratch.m] else t.trace }
    ∃ t, exec (.gstep r g)
        { s with trace := if g = 0 ∧ s.traceEn = true then s.trace ++ [.roundPre s.blk r s.scratch.v s.scratch.m]
                          else s.trace } = .next t ∧
      (r ≠ 9 ∨ g ≠ 7 → step s = .next
        { post t with scratch := { t.scratch with g := g + 1, r := if g = 7 then r + 1 else r } }) ∧
      (r = 9 ∧ g = 7 → step s = .next (endCompression (post t)))

/-- R222: between commands the unit waits with `ready = 1` and all state is kept; R63: writing BLK has no effect on the
unit. -/
def Obligations.WaitingAndFillingChangeNothing : Prop :=
  (∀ s : State, s.ready = true → s.host = [] → step s = .next s) ∧
  ∀ (s : State) (bytes : List Byte) (rest : List HostAction), s.host = .fill bytes :: rest →
    ∃ t, step s = .next t ∧ t = { s with host := rest, block := t.block } ∧
      ∀ k : Fin 64, t.block[k] = if h : k.val < bytes.length then bytes[k.val] else s.block[k]

/-- R225, R226: every state has a next state; nothing faults, refuses or sticks, whatever the instruction. -/
def Obligations.NothingStops : Prop :=
  (∀ s : State, ∃ t, step s = .next t) ∧ ∀ (i : Instr) (s : State), ∃ t, exec i s = .next t

/-! ### The commands -/

/-- R166: NOP is the word 0, in every phase, and writes RESP only. -/
def Obligations.NopOnlyResponds : Prop :=
  decode 0x0000 = .ok .nop ∧ ∀ s : State, exec .nop s = .next { s with resp := .ok }

/-- R176: TRACE has its two words, and writes TRACE_EN and RESP only, in every phase. -/
def Obligations.TraceWritesItsEnable : Prop :=
  decode 0x0005 = .ok (.trace false) ∧ decode 0x000D = .ok (.trace true) ∧
  ∀ (s : State) (en : Bool), exec (.trace en) s = .next { s with traceEn := en, resp := .ok }

/-- R158 (with R151, R152, R155, R160, R161): INIT in every phase (R159), legal or not. -/
def Obligations.InitBuildsSessionOrRaisesConfigError : Prop :=
  ∀ (s : State) (nn kk : BitVec 6),
    (nn ≠ 0 ∧ nn ≤ 32 ∧ kk ≤ 32 →
      ∃ t, exec (.init nn kk) s = .next t ∧
        t = { s with nn := nn, kk := kk, h := t.h, t := 0, blk := 0, dvalid := false, phase := .absorbing, resp := .ok } ∧
        t.h[0] = IV[0] ^^^ (0x01010000 ^^^ (kk.zeroExtend 32 <<< 8) ^^^ nn.zeroExtend 32) ∧
        ∀ i : Fin 8, i ≠ 0 → t.h[i] = IV[i]) ∧
    (nn = 0 ∨ 32 < nn ∨ 32 < kk →
      exec (.init nn kk) s = .next { s with resp := .configError, fault := s.fault ||| 0b001 })

/-- R24, R153: `PARAM` read as a word is `h0`, and for legal lengths the exclusive-or of R153 is the sum of its fields. -/
def Obligations.ParamReadsAsH0 : Prop :=
  (∀ s : State, s.param = h0 s.nn s.kk) ∧
  ∀ nn kk : BitVec 6, nn ≤ 32 → kk ≤ 32 →
    (h0 nn kk).toNat = 2 ^ 24 + 2 ^ 16 + kk.toNat * 2 ^ 8 + nn.toNat

/-- R167 (with R177): UPDATE in phase ABSORBING, and its StateError elsewhere; 100 events when tracing is on. The scratch
registers, and the model's counter of draws, are left open (R143, assumption 2). -/
def Obligations.UpdateAbsorbsFullBlock : Prop :=
  decode 0x0002 = .ok .update ∧
  ∀ s : State,
    (s.phase = .absorbing →
      ∃ t evs, exec .update s = .next t ∧
        t = { s with h := F s.h (blockWords s.block) (s.t + 64) false, t := s.t + 64, blk := s.blk + 1, resp := .ok,
                     ready := true, scratch := t.scratch, free := t.free, trace := s.trace ++ evs } ∧
        evs.length = if s.traceEn = true then 100 else 0) ∧
    (s.phase ≠ .absorbing →
      exec .update s = .next { s with resp := .stateError, fault := s.fault ||| 0b010 })

/-- R169 (with R170, R177): FINISH in phase ABSORBING, its StateError elsewhere, and IllegalCommand for the lengths that are
no FINISH (R83 item 5, R207); 100 events when tracing is on. -/
def Obligations.FinishAbsorbsFinalBlock : Prop :=
  ∀ (s : State) (len : BitVec 7),
    (len ≤ 64 → decode (BitVec.ofNat 16 (3 + 8 * len.toNat)) = .ok (.finish len)) ∧
    (s.phase = .absorbing → len ≤ 64 →
      ∃ t b evs, exec (.finish len) s = .next t ∧
        (∀ k : Fin 64, (b : Block)[k] = if k.val < len.toNat then s.block[k] else 0) ∧
        t = { s with h := F s.h (blockWords b) (s.t + len.zeroExtend 64) true, t := s.t + len.zeroExtend 64,
                     blk := s.blk + 1, phase := .finalized, resp := .ok, ready := true, scratch := t.scratch,
                     free := t.free, trace := s.trace ++ evs } ∧
        evs.length = if s.traceEn = true then 100 else 0) ∧
    (s.phase ≠ .absorbing → len ≤ 64 →
      exec (.finish len) s = .next { s with resp := .stateError, fault := s.fault ||| 0b010 }) ∧
    (64 < len →
      (∃ e, decode (BitVec.ofNat 16 (3 + 8 * len.toNat)) = .error e) ∧
      exec (.finish len) s = .next { s with resp := .illegalCommand, fault := s.fault ||| 0b100 })

/-- R170: "the result of FINISH depends only on `BLK[0..len-1]` and `len`". -/
def Obligations.FinishIgnoresBytesBeyondLen : Prop :=
  ∀ (s : State) (len : BitVec 7) (b b' : Block), len ≤ 64 →
    (∀ k : Fin 64, k.val < len.toNat → b[k] = b'[k]) →
    ∃ t : State, exec (.finish len) { s with block := b } = .next { t with block := b } ∧
      exec (.finish len) { s with block := b' } = .next { t with block := b' }

/-- R192 in both its forms (with R191, R194, R195, R199): DIGEST in phase FINALIZED, byte by byte and as `MemWrite`s of whole
words and of the bytes that are left (R13); its StateError elsewhere. -/
def Obligations.DigestSerializesHashState : Prop :=
  ∀ s : State,
    (s.phase = .finalized →
      ∃ t, exec .digest s = .next t ∧
        t = { s with dout := t.dout, dlen := s.nn, dvalid := true, resp := .ok } ∧
        (∀ k : Fin 32, t.dout[k] =
          if k.val < s.nn.toNat then s.h[k.val / 4].extractLsb' (8 * (k.val % 4)) 8 else 0) ∧
        (s.nn ≤ 32 →
          let q := s.nn.toNat / 4
          let whole := (List.range q).foldl (fun d i => memWrite d (4 * i) 4 (s.h.toList.getD i 0)) (Vector.replicate 32 0)
          t.dout = if s.nn.toNat % 4 = 0 then whole
            else memWrite whole (4 * q) (s.nn.toNat % 4) (s.h.toList.getD q 0))) ∧
    (s.phase ≠ .finalized →
      exec .digest s = .next { s with resp := .stateError, fault := s.fault ||| 0b010 })

/-- R193, R194: the words of `h` from `ceil(nn / 4)` on do not reach the digest. -/
def Obligations.DigestReadsOnlyItsWords : Prop :=
  ∀ (h h' : Words8) (nn : BitVec 6), (∀ i : Fin 8, i.val < (nn.toNat + 3) / 4 → h[i] = h'[i]) →
    digestBytes h nn = digestBytes h' nn

/-- R196: in phase FINALIZED no command but a successful INIT changes `h`; another DIGEST responds OK and writes the same
bytes; a valid digest never changes and stays valid. The invariant of R45 ties `DOUT` to `h`. -/
def Obligations.ValidDigestIsImmutable : Prop :=
  ∀ (s t : State) (i : Instr), s.Inv → s.phase = .finalized → i.isCommand = true →
    (∀ nn kk, i = .init nn kk → configLegal nn kk = false) → exec i s = .next t →
    t.phase = .finalized ∧ t.h = s.h ∧ t.t = s.t ∧ t.nn = s.nn ∧ (i = .digest → t.resp = .ok) ∧
      (s.dvalid = true → t.dvalid = true ∧ t.dout = s.dout ∧ t.dlen = s.dlen)

/-- R83 item 1, R204, R205: a word with `op` 6 or 7 raises IllegalCommand, whatever its upper bits. -/
def Obligations.ReservedOpcodesRaiseIllegalCommand : Prop :=
  ∀ (s : State) (hi : BitVec 13),
    exec (.reservedOp6 hi) s = .next { s with resp := .illegalCommand, fault := s.fault ||| 0b100 } ∧
    exec (.reservedOp7 hi) s = .next { s with resp := .illegalCommand, fault := s.fault ||| 0b100 }

/-- R205: a command that raises an error changes nothing but RESP and its FAULT bit. -/
def Obligations.ErrorChangesOnlyRespAndFault : Prop :=
  ∀ (i : Instr) (s t : State), i.isCommand = true → exec i s = .next t → t.resp ≠ .ok →
    t = { s with resp := t.resp, fault := s.fault ||| 1#3 <<< (t.resp.code.toNat - 1) }

/-- R179: the complete transition table, by command and by command word. -/
def Obligations.TransitionTable : Prop :=
  (∀ (i : Instr) (s : State), i.isCommand = true →
    ∃ t, exec i s = .next t ∧ (t.resp, t.phase) = transition i s.phase) ∧
  ∀ (w : BitVec 16) (s : State), ∃ t, execWord w s = .next t ∧
    (t.resp, t.phase) =
      match decode w with
      | .ok i => transition i s.phase
      | .error _ => (.illegalCommand, s.phase)

/-- R47: the access matrix, the writes; and no command writes BLK or the host's list. -/
def Obligations.CommandsWriteOnlyTheirState : Prop :=
  ∀ (i : Instr) (s t : State), i.isCommand = true → exec i s = .next t →
    t.block = s.block ∧ t.host = s.host ∧
    ((∀ nn kk, i ≠ .init nn kk) → i ≠ .update → (∀ len, i ≠ .finish len) →
      t.h = s.h ∧ t.t = s.t ∧ t.blk = s.blk) ∧
    (i ≠ .update → (∀ len, i ≠ .finish len) → t.trace = s.trace ∧ t.scratch = s.scratch) ∧
    ((∀ nn kk, i ≠ .init nn kk) → t.nn = s.nn ∧ t.kk = s.kk) ∧
    ((∀ nn kk, i ≠ .init nn kk) → (∀ len, i ≠ .finish len) → t.phase = s.phase) ∧
    ((∀ nn kk, i ≠ .init nn kk) → i ≠ .digest → t.dvalid = s.dvalid) ∧
    (i ≠ .digest → t.dout = s.dout ∧ t.dlen = s.dlen) ∧
    ((∀ en, i ≠ .trace en) → t.traceEn = s.traceEn)

/-- R230, R42: RESET from any state. The registers that "hold no value" are left open; `PARAM`'s fanout and depth are
hardwired to 1; the trace log, BLK and the host's list are not the unit's (R232). Nothing else clears a FAULT bit, and only
TRACE 0 besides clears TRACE_EN. -/
def Obligations.ResetFromAnyState : Prop :=
  (∀ s : State, ∃ t, exec .reset s = .next t ∧ t.phase = .init ∧ t.fault = 0 ∧ t.resp = .ok ∧ t.dvalid = false ∧
    t.traceEn = false ∧ t.ready = true ∧ t.param.extractLsb' 16 8 = 1 ∧ t.param.extractLsb' 24 8 = 1 ∧
    t.trace = s.trace ∧ t.block = s.block ∧ t.host = s.host) ∧
  ∀ (i : Instr) (s t : State), i ≠ .reset → exec i s = .next t →
    s.fault &&& t.fault = s.fault ∧ (i ≠ .trace false → s.traceEn = true → t.traceEn = true)

/-- R42: the values the spec gives for reset, in the state the machine starts from. -/
def Obligations.ResetStateAsSpecified : Prop :=
  State.reset.phase = .init ∧ State.reset.fault = 0 ∧ State.reset.resp = .ok ∧ State.reset.dvalid = false ∧
  State.reset.traceEn = false ∧ State.reset.ready = true ∧
  State.reset.param.extractLsb' 16 8 = 1 ∧ State.reset.param.extractLsb' 24 8 = 1

/-! ### Word arithmetic and G -/

/-- R105, R106, R107: the results of the three word operations run on their own, which change nothing else. Where the
result is left is the model's choice (assumption 7). -/
def Obligations.WordOperationsLeaveTheirResult : Prop :=
  ∀ (s : State) (x y z : Word) (n : RotDist),
    (∃ w, exec (.add32 x y none) s = .next { s with scratch := { s.scratch with microResult := w } } ∧
      w.toNat = (x.toNat + y.toNat) % 2 ^ 32) ∧
    (∃ w, exec (.add32 x y (some z)) s = .next { s with scratch := { s.scratch with microResult := w } } ∧
      w.toNat = (x.toNat + y.toNat + z.toNat) % 2 ^ 32) ∧
    (∃ w, exec (.xor32 x y) s = .next { s with scratch := { s.scratch with microResult := w } } ∧
      ∀ i : Fin 32, w[i] = (x[i] != y[i])) ∧
    (∃ w, exec (.rotr x n) s = .next { s with scratch := { s.scratch with microResult := w } } ∧
      ∀ i : Fin 32, w[i] = x[(i.val + n.bits) % 32]'(Nat.mod_lt _ (by decide)))

/-- R108: the rotate law, and `rotl32` as a right rotation. -/
def Obligations.RotateRightUndoesRotateLeft : Prop :=
  ∀ (x : Word) (n : RotDist),
    rotr32 (rotl32 x n.bits) n.bits = x ∧ rotl32 x n.bits = rotr32 x (32 - n.bits)

/-- R109: G run on its own leaves the eight values of its eight lines in the G registers and changes nothing else. -/
def Obligations.GFollowsItsEightLines : Prop :=
  ∀ (s : State) (a b c d m0 m1 : Word), ∃ x : GRegs,
    exec (.g a b c d m0 m1) s = .next { s with scratch := { s.scratch with gregs := x } } ∧
    x.a1 = a + b + m0 ∧ x.d1 = (d ^^^ x.a1).rotateRight 16 ∧ x.c1 = c + x.d1 ∧ x.b1 = (b ^^^ x.c1).rotateRight 12 ∧
    x.a2 = x.a1 + x.b1 + m1 ∧ x.d2 = (x.d1 ^^^ x.a2).rotateRight 8 ∧ x.c2 = x.c1 + x.d2 ∧
    x.b2 = (x.b1 ^^^ x.c2).rotateRight 7

/-- R112: G is invertible in its first four operands; for fixed `m0`, `m1` it is a bijection on quadruples. -/
def Obligations.GIsInvertible : Prop :=
  ∀ m0 m1 : Word,
    (∀ a b c d : Word, let x := mixG { a, b, c, d, m0, m1 }
      mixGInv x.a2 x.b2 x.c2 x.d2 m0 m1 = (a, b, c, d)) ∧
    Function.Bijective (fun q : Word × Word × Word × Word =>
      let x := mixG { a := q.1, b := q.2.1, c := q.2.2.1, d := q.2.2.2, m0, m1 }
      (x.a2, x.b2, x.c2, x.d2))

/-! ### The tables and the schedule -/

/-- R55: `IV[i]` is `floor(frac(sqrt(p_i)) * 2^32)` for the first eight primes, said with whole numbers: with
`n = floor(sqrt(p * 2^64))`, it is `n mod 2^32`. -/
def Obligations.IvIsTheSquareRootsOfPrimes : Prop :=
  ∀ p ∈ ([(0, 2), (1, 3), (2, 5), (3, 7), (4, 11), (5, 13), (6, 17), (7, 19)] : List (Fin 8 × Nat)),
    ∃ n : Nat, n * n ≤ p.2 * 2 ^ 64 ∧ p.2 * 2 ^ 64 < (n + 1) * (n + 1) ∧ IV[p.1].toNat = n % 2 ^ 32

/-- R121's formulas, R128, R130: each row of SIGMA is a permutation of 0..15; the columns, and the diagonals, partition
0..15; every diagonal takes one index of each column. -/
def Obligations.TablesPermuteAndPartition : Prop :=
  (∀ r : Fin 10, SIGMA[r].toList.Perm (List.finRange 16)) ∧
  (∀ j : Fin 4, QUAD[j.val] =
      (⟨j, by omega⟩, ⟨j + 4, by omega⟩, ⟨j + 8, by omega⟩, ⟨j + 12, by omega⟩)) ∧
  (∀ j : Fin 4, QUAD[4 + j.val] =
      (⟨j, by omega⟩, ⟨4 + (j + 1) % 4, by omega⟩, ⟨8 + (j + 2) % 4, by omega⟩, ⟨12 + (j + 3) % 4, by omega⟩)) ∧
  (([0, 1, 2, 3] : List (Fin 8)).flatMap (fun g => [QUAD[g].1, QUAD[g].2.1, QUAD[g].2.2.1, QUAD[g].2.2.2])).Perm
    (List.finRange 16) ∧
  (([4, 5, 6, 7] : List (Fin 8)).flatMap (fun g => [QUAD[g].1, QUAD[g].2.1, QUAD[g].2.2.1, QUAD[g].2.2.2])).Perm
    (List.finRange 16)

/-- R123 (with R111, R113, R122): GSTEP mixes the four words of its quadruple with its two message words, leaves the other
twelve and `m` unchanged, and emits its GSnap only when TRACE_EN = 1. -/
def Obligations.GstepMixesItsQuadruple : Prop :=
  ∀ (s : State) (r : Fin 10) (g : Fin 8) (ia ib ic id : Fin 16), QUAD[g] = (ia, ib, ic, id) →
    let v := s.scratch.v
    let i : GIn := { a := v[ia], b := v[ib], c := v[ic], d := v[id],
                     m0 := s.scratch.m[SIGMA[r][2 * g.val]], m1 := s.scratch.m[SIGMA[r][2 * g.val + 1]] }
    let x := mixG i
    ∃ t, exec (.gstep r g) s = .next t ∧
      t.scratch.v[ia] = x.a2 ∧ t.scratch.v[ib] = x.b2 ∧ t.scratch.v[ic] = x.c2 ∧ t.scratch.v[id] = x.d2 ∧
      (∀ j : Fin 16, j ≠ ia → j ≠ ib → j ≠ ic → j ≠ id → t.scratch.v[j] = v[j]) ∧
      t = { s with
        scratch := { s.scratch with v := t.scratch.v, gregs := x, r := r, g := g },
        trace := if s.traceEn then s.trace ++ [.gsnap s.blk r g i x] else s.trace }

/-- R124: ROUND is its eight GSTEPs in order, between the two snapshots of R144. -/
def Obligations.RoundIsItsEightGsteps : Prop :=
  ∀ (s : State) (r : Fin 10), ∃ t,
    execAll [.gstep r 0, .gstep r 1, .gstep r 2, .gstep r 3, .gstep r 4, .gstep r 5, .gstep r 6, .gstep r 7]
      { s with trace := [] } = .next t ∧
    exec (.round r) s = .next { t with
      trace := if s.traceEn then
          s.trace ++ [.roundPre s.blk r s.scratch.v s.scratch.m] ++ t.trace ++ [.roundPost s.blk r t.scratch.v t.scratch.m]
        else s.trace }

/-- R129: the four column steps in any order give the same `v`, and so do the four diagonal steps. -/
def Obligations.StepsOfAGroupCommute : Prop :=
  ∀ (m v : Words16) (r : Fin 10) (gs : List (Fin 8)),
    (gs.Perm [0, 1, 2, 3] → gs.foldl (gstepV m r) v = [0, 1, 2, 3].foldl (gstepV m r) v) ∧
    (gs.Perm [4, 5, 6, 7] → gs.foldl (gstepV m r) v = [4, 5, 6, 7].foldl (gstepV m r) v)

/-- R129, R131: four lanes side by side, each reading the `v` at the start of the group, give the `v` of the sequential
order. -/
def Obligations.LanesGiveTheSequentialResult : Prop :=
  ∀ (m v : Words16) (r : Fin 10),
    groupInLanes m r [0, 1, 2, 3] v = [0, 1, 2, 3].foldl (gstepV m r) v ∧
    groupInLanes m r [4, 5, 6, 7] v = [4, 5, 6, 7].foldl (gstepV m r) v

/-! ### The compression function -/

/-- R136, R137, R138, R148: the working vector after steps 1 to 3. -/
def Obligations.WorkingVectorIsBuilt : Prop :=
  ∀ (h : Words8) (t : BitVec 64) (final : Bool),
    let v := buildV h t final
    (∀ i : Fin 8, v[i.val] = h[i]) ∧ (∀ i : Fin 4, v[8 + i.val] = IV[i.val]) ∧
    v[12] = IV[4] ^^^ t.extractLsb' 0 32 ∧ v[13] = IV[5] ^^^ t.extractLsb' 32 32 ∧
    v[14] = (if final then IV[6] ^^^ 0xFFFFFFFF else IV[6]) ∧ v[15] = IV[7]

/-- R140: the fold. -/
def Obligations.FoldBackXorsBothHalves : Prop :=
  ∀ (h : Words8) (m : Words16) (t : BitVec 64) (final : Bool) (i : Fin 8),
    (F h m t final)[i] =
      h[i] ^^^ (roundsV m (buildV h t final))[i.val] ^^^ (roundsV m (buildV h t final))[8 + i.val]

/-- R135, R141, R142: F on the state is the pure function of `(h, m, t, f)`; it leaves everything but `h`, the scratch it
uses and the trace log unchanged, `m` included. That its result goes to `h` when it is run on its own is assumption 7. -/
def Obligations.FInstructionIsThePureF : Prop :=
  ∀ (s : State) (final : Bool), ∃ t, exec (.f final) s = .next t ∧
    t = { s with
      h := F s.h s.scratch.m s.t final,
      scratch := { s.scratch with
        v := roundsV s.scratch.m (buildV s.h s.t final), f := final, r := 9, g := 7, gregs := t.scratch.gregs },
      trace := t.trace } ∧
    (s.traceEn = false → t.trace = s.trace)

/-- R139, R141: F is the ten ROUNDs in order, from the vector of steps 1 to 3, then the fold into `h`. -/
def Obligations.FIsItsTenRounds : Prop :=
  ∀ (s : State) (final : Bool), ∃ t,
    execAll [.round 0, .round 1, .round 2, .round 3, .round 4, .round 5, .round 6, .round 7, .round 8, .round 9]
      { s with scratch := { s.scratch with v := buildV s.h s.t final, f := final, r := 0, g := 0 } } = .next t ∧
    exec (.f final) s = .next { t with h := foldBack s.h t.scratch.v }

/-- R53, R178 (with R170): the words of the block, little-endian; of a loaded block, with zero from `keep` on. -/
def Obligations.LoadedWordsAreLittleEndian : Prop :=
  ∀ (b : Block) (keep : Nat) (i : Fin 16),
    let B : Fin 64 → Nat := fun k => if k.val < keep then b[k].toNat else 0
    ((blockWords b)[i]).toNat =
      b[4 * i.val].toNat + 2 ^ 8 * b[4 * i.val + 1].toNat + 2 ^ 16 * b[4 * i.val + 2].toNat +
        2 ^ 24 * b[4 * i.val + 3].toNat ∧
    (blockWords b)[i] = BitVec.ofNat 32 (memRead b (4 * i.val) 4) ∧
    ((loadBlock keep b)[i]).toNat =
      B ⟨4 * i, by omega⟩ + 2 ^ 8 * B ⟨4 * i + 1, by omega⟩ + 2 ^ 16 * B ⟨4 * i + 2, by omega⟩ +
        2 ^ 24 * B ⟨4 * i + 3, by omega⟩

/-- R171, R172: `t` is one 64-bit number, an addition carries from `t.low` into `t.high` and wraps modulo 2^64. -/
def Obligations.CounterCarriesAndWraps : Prop :=
  ∀ (t : BitVec 64) (n : Nat), n < 2 ^ 64 →
    let u := add64 t (BitVec.ofNat 64 n)
    (tHigh u).toNat * 2 ^ 32 + (tLow u).toNat = ((tHigh t).toNat * 2 ^ 32 + (tLow t).toNat + n) % 2 ^ 64

/-! ### The trace -/

/-- R145, R215: with TRACE_EN = 1 an UPDATE or FINISH that succeeds appends exactly 100 events with the keys of R145. -/
def Obligations.CompressionEmitsOneHundredEvents : Prop :=
  ∀ (s : State) (i : Instr), (i = .update ∨ ∃ len : BitVec 7, len ≤ 64 ∧ i = .finish len) → s.phase = .absorbing →
    s.traceEn = true →
    ∃ t evs, exec i s = .next t ∧ t.trace = s.trace ++ evs ∧ evs.length = 100 ∧
      evs.map TraceEvent.key = compressionKeys s.blk

/-- R144: the snapshots of a traced compression. The first shows the working vector of steps 1 to 3 of F, every snapshot
shows the loaded block `m` (R134), `RoundPost(blk, r)` and `RoundPre(blk, r+1)` show the same `v`, and the fold of the last
is the new `h`. -/
def Obligations.RoundSnapshotsChain : Prop :=
  ∀ (s : State) (i : Instr) (keep : Nat) (final : Bool), s.phase = .absorbing → s.traceEn = true →
    (i = .update ∧ keep = 64 ∧ final = false) ∨
      (∃ len : BitVec 7, len ≤ 64 ∧ i = .finish len ∧ keep = len.toNat ∧ final = true) →
    ∃ (t : State) (vs : Fin 11 → Words16), exec i s = .next t ∧
      vs 0 = buildV s.h (add64 s.t (BitVec.ofNat 64 keep)) final ∧ t.h = foldBack s.h (vs 10) ∧
      ∀ r : Fin 10,
        t.trace[s.trace.length + 10 * r.val]? =
          some (.roundPre s.blk r (vs r.castSucc) (loadBlock keep s.block)) ∧
        t.trace[s.trace.length + 10 * r.val + 9]? =
          some (.roundPost s.blk r (vs r.succ) (loadBlock keep s.block))

/-- R216: tracing changes nothing: with tracing off and the log erased, every instruction gives the same state but for
TRACE_EN and the log. -/
def Obligations.TracingChangesNothing : Prop :=
  ∀ (i : Instr) (s t : State), exec i s = .next t → ∃ t', exec i s.untraced = .next t' ∧ t'.untraced = t.untraced

/-! ### Whole-machine rules -/

/-- R210: FAULT is cleared only by reset: in every other step a bit that is 1 stays 1; reset clears them all. The unit
never reads FAULT: what it held reaches nothing else. -/
def Obligations.FaultBitsStayUntilReset : Prop :=
  (∀ s t : State, step s = .next t →
    ((∀ rest, s.host ≠ .reset :: rest) → s.fault &&& t.fault = s.fault) ∧
    ((∃ rest, s.host = .reset :: rest) → t.fault = 0)) ∧
  ∀ (s t : State) (f : BitVec 3), step s = .next t →
    ∃ t', step { s with fault := f } = .next t' ∧ t' = { t with fault := t'.fault }

/-- R45: the invariants hold after every step from any state in which they hold. The clauses about a busy unit are the
model's (assumption 6). -/
def Obligations.InvariantKeptByEveryStep : Prop :=
  ∀ s t : State, s.Inv → step s = .next t → t.Inv

/-- R45: the invariants hold after reset, whatever the registers that hold no value hold. -/
def Obligations.InvariantHoldsAtReset : Prop := State.reset.Inv

/-- R44: no command reads the scratch registers before writing them: what they held has no effect on anything else. -/
def Obligations.ScratchIsNotReadAcrossCommands : Prop :=
  ∀ (i : Instr) (s t : State) (sc : Scratch), i.isCommand = true → exec i s = .next t →
    ∃ t', exec i { s with scratch := sc } = .next t' ∧ t' = { t with scratch := t'.scratch }

/-- R43, R241: in phase INIT no command reads a register that holds no value: whatever they hold, the response, the flags,
the phase and the trace are the same, and once INIT has opened a session so are all session registers. -/
def Obligations.UnwrittenRegistersAreNotRead : Prop :=
  ∀ (i : Instr) (s t : State) (u : UnwrittenRegs), i.isCommand = true → s.phase = .init → exec i s = .next t →
    ∃ t', exec i { s with h := u.h, t := u.t, nn := u.nn, kk := u.kk, blk := u.blk, dout := u.dout, dlen := u.dlen } =
        .next t' ∧
      t' = { t with h := t'.h, t := t'.t, nn := t'.nn, kk := t'.kk, blk := t'.blk, dout := t'.dout, dlen := t'.dlen } ∧
      (t.phase = .absorbing → t'.h = t.h ∧ t'.t = t.t ∧ t'.nn = t.nn ∧ t'.kk = t.kk ∧ t'.blk = t.blk)

/-- R31, R126, R139: an atomic UPDATE or FINISH is its start followed by the 80 step words 0 to 79 run one step at a time,
and ends there. -/
def Obligations.AtomicCommandIsEightyStepWords : Prop :=
  ∀ s : State, s.host = [] → s.phase = .absorbing →
    (∃ t, exec .update s = .next t ∧ Sys2Proof.core.run 80 (beginCompression 64 false s) = .next t) ∧
    ∀ len : BitVec 7, len ≤ 64 →
      ∃ t, exec (.finish len) s = .next t ∧ Sys2Proof.core.run 80 (beginCompression len.toNat true s) = .next t

/-- R95, R181: HASH is the steps of its command sequence, in any phase and whatever the responses. That the sequence goes
on after an INIT that did not respond OK is assumption 8. -/
def Obligations.HashIsItsCommandSequence : Prop :=
  ∀ (s : State) (nn kk : BitVec 6) (msg : List Byte) (rest : List HostAction), s.ready = true →
    ∃ t, exec (.hash nn kk msg) { s with host := rest } = .next t ∧
      Sys2Proof.core.run (hashActions nn kk msg).length { s with host := hashActions nn kk msg ++ rest } = .next t

/-- R181 (with R145, R169, R173, R174, R192): HASH with legal lengths, from every state and for every message: `t = L`,
`blk = max(1, nb)`, the digest is the serialized chain of compressions of the message's blocks. What is left in `BLK`, the last
block over the one before it, is the model's choice where R181 writes no byte or says "BLK = anything": assumption 8. -/
def Obligations.HashComputesTheDigestOfTheMessage : Prop :=
  ∀ (s : State) (nn kk : BitVec 6) (msg : List Byte), nn ≠ 0 → nn ≤ 32 → kk ≤ 32 →
    let nb := max 1 ((msg.length + 63) / 64)
    ∃ t, exec (.hash nn kk msg) s = .next t ∧ t.resp = .ok ∧ t.fault = s.fault ∧ t.phase = .finalized ∧
      t.t = BitVec.ofNat 64 msg.length ∧ t.blk = BitVec.ofNat 64 nb ∧
      t.h = messageH nn kk msg ∧ t.nn = nn ∧ t.kk = kk ∧ t.dvalid = true ∧ t.dlen = nn ∧
      t.dout = digestBytes (messageH nn kk msg) nn ∧ t.traceEn = s.traceEn ∧ t.ready = true ∧ t.host = s.host ∧
      s.trace <+: t.trace ∧ t.trace.length = s.trace.length + (if s.traceEn = true then 100 * nb else 0) ∧
      ∀ k : Fin 64, t.block[k] =
        if 64 * (nb - 1) + k.val < msg.length then msg.getD (64 * (nb - 1) + k.val) 0
        else if nb = 1 then s.block[k] else msg.getD (64 * (nb - 2) + k.val) 0

/-! ### The signal level -/

/-- R52, R60: the packing of the block port and of the digest port, by byte and by word. -/
def Obligations.PortsArePackedLittleEndian : Prop :=
  (∀ (p : BitVec 512) (k : Fin 64), (unpackBlock p)[k] = p.extractLsb' (8 * k.val) 8) ∧
  (∀ (p : BitVec 512) (i : Fin 16), (blockWords (unpackBlock p))[i] = p.extractLsb' (32 * i.val) 32) ∧
  (∀ (d : DigestBuffer) (k : Fin 32), (packDigest d).extractLsb' (8 * k.val) 8 = d[k]) ∧
  ∀ (h : Words8) (i : Fin 8), (packDigest (digestBytes h 32)).extractLsb' (32 * i.val) 32 = h[i]

/-- R100, R226, R249: a command accepted by an idle unit keeps `ready_o` at 0 and the state unchanged for exactly its
latency, whatever the command ports show meanwhile; then its effect, on the block sampled with it, its response pulse and
`ready_o = 1` appear together. The latency is the open parameter of R247, any number. -/
def Obligations.AcceptedCommandIsAnsweredAfterItsLatency : Prop :=
  ∀ (x : SigState) (p : PortsIn) (ps : List PortsIn), x.running = none → p.rstN = true → p.cmdValid = true →
    (∀ q ∈ ps, q.rstN = true) →
    let lat := Config.lat (opField p.cmd) x.unit.traceEn
    ps.length ≤ lat →
    ∃ y, cycles (p :: ps) x = .next y ∧
      if ps.length < lat then y.unit = x.unit ∧ y.ports.ready = false ∧ y.ports.respValid = false
      else execWord p.cmd { x.unit with block := unpackBlock p.block } = .next y.unit ∧
        y.ports.ready = true ∧ y.ports.respValid = true

/-- R101, R231: reset at a rising edge puts the unit in the reset state whatever it was doing; a command under way gives no
response and has no effect but for the trace events that had already shown on the trace ports, a first part of the events it
would have emitted. -/
def Obligations.ResetDropsTheCommandUnderWay : Prop :=
  ∀ (x : SigState) (p : PortsIn), p.rstN = false →
    ∃ y evs, cycle p x = .next y ∧ exec .reset { x.unit with trace := x.unit.trace ++ evs } = .next y.unit ∧
      y.ports.ready = true ∧ y.ports.respValid = false ∧ y.ports.traceValid = false ∧
      (x.running = none → evs = []) ∧ (x.unit.traceEn = false → evs = []) ∧
      ∀ c t, x.running = some c → execWord c.word { x.unit with block := c.sampled } = .next t →
        ∃ all, t.trace = x.unit.trace ++ all ∧ evs = all.take c.shown

/-- R102, R215: the trace ports show every event of a command once, in the order of the log and no later than the response;
before the response they have shown a first part of them; with TRACE_EN = 0 `trace_valid_o` is 0. Every cycle before the
response shows one event at most, and so does that of the response if the latency leaves a cycle for each event. On which
cycle an event shows is a free value, and that the response's cycle shows all that is left is the model's (assumption 14). -/
def Obligations.TracePortsShowEveryEventInOrder : Prop :=
  (∀ (x : SigState) (p : PortsIn) (ps : List PortsIn), x.running = none → p.rstN = true → p.cmdValid = true →
    (∀ q ∈ ps, q.rstN = true) →
    let lat := Config.lat (opField p.cmd) x.unit.traceEn
    ps.length ≤ lat →
    ∃ t y, execWord p.cmd { x.unit with block := unpackBlock p.block } = .next t ∧ cycles (p :: ps) x = .next y ∧
      x.unit.trace ++ eventsObserved (p :: ps) x <+: t.trace ∧
      (ps.length = lat → t.trace = x.unit.trace ++ eventsObserved (p :: ps) x) ∧
      (ps.length < lat ∨ t.trace.length ≤ x.unit.trace.length + lat + 1 → y.tracing.length ≤ 1)) ∧
  ∀ (x y : SigState) (p : PortsIn), x.unit.traceEn = false → cycle p x = .next y → y.ports.traceValid = false

/-- R99, R102: `trace_valid_o` and the fields of the trace ports: kind, `blk`, `r`, `g`, and the words of `v`, `m` and the
snapshot at bits `[32i+31:32i]`. -/
def Obligations.TracePortsArePacked : Prop :=
  (∀ x : SigState, (x.tracing = [] → x.ports.traceValid = false ∧ x.ports.trace = []) ∧
    ∀ e, x.tracing = [e] → x.ports.traceValid = true ∧ x.ports.trace = [e.ports]) ∧
  (∀ (blk : BitVec 64) (r : Fin 10) (v m : Words16),
    ∀ q ∈ [((TraceEvent.roundPre blk r v m).ports, 0), ((TraceEvent.roundPost blk r v m).ports, 2)],
      q.1.kind.toNat = q.2 ∧ q.1.blk = blk ∧ q.1.round.toNat = r.val ∧
      ∃ pv pm, q.1.v = some pv ∧ q.1.m = some pm ∧
        ∀ i : Fin 16, pv.extractLsb' (32 * i.val) 32 = v[i] ∧ pm.extractLsb' (32 * i.val) 32 = m[i]) ∧
  ∀ (blk : BitVec 64) (r : Fin 10) (g : Fin 8) (i : GIn) (x : GRegs),
    let q := (TraceEvent.gsnap blk r g i x).ports
    q.kind = 1 ∧ q.blk = blk ∧ q.round.toNat = r.val ∧ (∃ pg, q.g = some pg ∧ pg.toNat = g.val) ∧
    ∃ px, q.gsnap = some px ∧
      ∀ k : Fin 14, px.extractLsb' (32 * k.val) 32 =
        #v[i.a, i.b, i.c, i.d, i.m0, i.m1, x.a1, x.d1, x.c1, x.b1, x.a2, x.b2, x.c2, x.d2][k]

/-- Every cycle keeps the invariant of the signal level: R45 of the unit, the pulse of R100, one event a cycle before the
response, and the cycles R102 needs for the events to come wherever the latency leaves them (assumption 14). -/
def Obligations.SignalInvariantKeptByEveryCycle : Prop :=
  ∀ (p : PortsIn) (x y : SigState), x.Inv → cycle p x = .next y → y.Inv

/-- The invariant of the signal level holds after reset. -/
def Obligations.SignalInvariantHoldsAtReset : Prop := SigState.reset.Inv
end

