-- ==== Sys2Proof/Laws/State.lean ====
section
/-! SUPPORT. One lemma per field of State per named update, each by rfl, so that no proof unfolds a record update. -/

namespace Sys2Proof.Machine

variable (s : State)

@[simp] theorem respondOk_h : (respondOk s).h = s.h := rfl
@[simp] theorem respondOk_t : (respondOk s).t = s.t := rfl
@[simp] theorem respondOk_phase : (respondOk s).phase = s.phase := rfl
@[simp] theorem respondOk_nn : (respondOk s).nn = s.nn := rfl
@[simp] theorem respondOk_kk : (respondOk s).kk = s.kk := rfl
@[simp] theorem respondOk_blk : (respondOk s).blk = s.blk := rfl
@[simp] theorem respondOk_fault : (respondOk s).fault = s.fault := rfl
@[simp] theorem respondOk_resp : (respondOk s).resp = .ok := rfl
@[simp] theorem respondOk_dvalid : (respondOk s).dvalid = s.dvalid := rfl
@[simp] theorem respondOk_traceEn : (respondOk s).traceEn = s.traceEn := rfl
@[simp] theorem respondOk_dout : (respondOk s).dout = s.dout := rfl
@[simp] theorem respondOk_dlen : (respondOk s).dlen = s.dlen := rfl
@[simp] theorem respondOk_ready : (respondOk s).ready = s.ready := rfl
@[simp] theorem respondOk_scratch : (respondOk s).scratch = s.scratch := rfl
@[simp] theorem respondOk_trace : (respondOk s).trace = s.trace := rfl
@[simp] theorem respondOk_block : (respondOk s).block = s.block := rfl
@[simp] theorem respondOk_host : (respondOk s).host = s.host := rfl
@[simp] theorem respondOk_free : (respondOk s).free = s.free := rfl

@[simp] theorem raiseError_h (e : CmdError) : (raiseError e s).h = s.h := rfl
@[simp] theorem raiseError_t (e : CmdError) : (raiseError e s).t = s.t := rfl
@[simp] theorem raiseError_phase (e : CmdError) : (raiseError e s).phase = s.phase := rfl
@[simp] theorem raiseError_nn (e : CmdError) : (raiseError e s).nn = s.nn := rfl
@[simp] theorem raiseError_kk (e : CmdError) : (raiseError e s).kk = s.kk := rfl
@[simp] theorem raiseError_blk (e : CmdError) : (raiseError e s).blk = s.blk := rfl
@[simp] theorem raiseError_fault (e : CmdError) : (raiseError e s).fault = setFault e s.fault := rfl
@[simp] theorem raiseError_resp (e : CmdError) : (raiseError e s).resp = e.resp := rfl
@[simp] theorem raiseError_dvalid (e : CmdError) : (raiseError e s).dvalid = s.dvalid := rfl
@[simp] theorem raiseError_traceEn (e : CmdError) : (raiseError e s).traceEn = s.traceEn := rfl
@[simp] theorem raiseError_dout (e : CmdError) : (raiseError e s).dout = s.dout := rfl
@[simp] theorem raiseError_dlen (e : CmdError) : (raiseError e s).dlen = s.dlen := rfl
@[simp] theorem raiseError_ready (e : CmdError) : (raiseError e s).ready = s.ready := rfl
@[simp] theorem raiseError_scratch (e : CmdError) : (raiseError e s).scratch = s.scratch := rfl
@[simp] theorem raiseError_trace (e : CmdError) : (raiseError e s).trace = s.trace := rfl
@[simp] theorem raiseError_block (e : CmdError) : (raiseError e s).block = s.block := rfl
@[simp] theorem raiseError_host (e : CmdError) : (raiseError e s).host = s.host := rfl
@[simp] theorem raiseError_free (e : CmdError) : (raiseError e s).free = s.free := rfl

@[simp] theorem emit_h (ev : TraceEvent) : (emit ev s).h = s.h := rfl
@[simp] theorem emit_t (ev : TraceEvent) : (emit ev s).t = s.t := rfl
@[simp] theorem emit_phase (ev : TraceEvent) : (emit ev s).phase = s.phase := rfl
@[simp] theorem emit_nn (ev : TraceEvent) : (emit ev s).nn = s.nn := rfl
@[simp] theorem emit_kk (ev : TraceEvent) : (emit ev s).kk = s.kk := rfl
@[simp] theorem emit_blk (ev : TraceEvent) : (emit ev s).blk = s.blk := rfl
@[simp] theorem emit_fault (ev : TraceEvent) : (emit ev s).fault = s.fault := rfl
@[simp] theorem emit_resp (ev : TraceEvent) : (emit ev s).resp = s.resp := rfl
@[simp] theorem emit_dvalid (ev : TraceEvent) : (emit ev s).dvalid = s.dvalid := rfl
@[simp] theorem emit_traceEn (ev : TraceEvent) : (emit ev s).traceEn = s.traceEn := rfl
@[simp] theorem emit_dout (ev : TraceEvent) : (emit ev s).dout = s.dout := rfl
@[simp] theorem emit_dlen (ev : TraceEvent) : (emit ev s).dlen = s.dlen := rfl
@[simp] theorem emit_ready (ev : TraceEvent) : (emit ev s).ready = s.ready := rfl
@[simp] theorem emit_scratch (ev : TraceEvent) : (emit ev s).scratch = s.scratch := rfl
@[simp] theorem emit_trace (ev : TraceEvent) : (emit ev s).trace = if s.traceEn then s.trace ++ [ev] else s.trace := rfl
@[simp] theorem emit_block (ev : TraceEvent) : (emit ev s).block = s.block := rfl
@[simp] theorem emit_host (ev : TraceEvent) : (emit ev s).host = s.host := rfl
@[simp] theorem emit_free (ev : TraceEvent) : (emit ev s).free = s.free := rfl

@[simp] theorem fillBlk_h (bytes : List Byte) : (fillBlk bytes s).h = s.h := by rw [fillBlk]
@[simp] theorem fillBlk_t (bytes : List Byte) : (fillBlk bytes s).t = s.t := by rw [fillBlk]
@[simp] theorem fillBlk_phase (bytes : List Byte) : (fillBlk bytes s).phase = s.phase := by rw [fillBlk]
@[simp] theorem fillBlk_nn (bytes : List Byte) : (fillBlk bytes s).nn = s.nn := by rw [fillBlk]
@[simp] theorem fillBlk_kk (bytes : List Byte) : (fillBlk bytes s).kk = s.kk := by rw [fillBlk]
@[simp] theorem fillBlk_blk (bytes : List Byte) : (fillBlk bytes s).blk = s.blk := by rw [fillBlk]
@[simp] theorem fillBlk_fault (bytes : List Byte) : (fillBlk bytes s).fault = s.fault := by rw [fillBlk]
@[simp] theorem fillBlk_resp (bytes : List Byte) : (fillBlk bytes s).resp = s.resp := by rw [fillBlk]
@[simp] theorem fillBlk_dvalid (bytes : List Byte) : (fillBlk bytes s).dvalid = s.dvalid := by rw [fillBlk]
@[simp] theorem fillBlk_traceEn (bytes : List Byte) : (fillBlk bytes s).traceEn = s.traceEn := by rw [fillBlk]
@[simp] theorem fillBlk_dout (bytes : List Byte) : (fillBlk bytes s).dout = s.dout := by rw [fillBlk]
@[simp] theorem fillBlk_dlen (bytes : List Byte) : (fillBlk bytes s).dlen = s.dlen := by rw [fillBlk]
@[simp] theorem fillBlk_ready (bytes : List Byte) : (fillBlk bytes s).ready = s.ready := by rw [fillBlk]
@[simp] theorem fillBlk_scratch (bytes : List Byte) : (fillBlk bytes s).scratch = s.scratch := by rw [fillBlk]
@[simp] theorem fillBlk_trace (bytes : List Byte) : (fillBlk bytes s).trace = s.trace := by rw [fillBlk]
@[simp] theorem fillBlk_block (bytes : List Byte) : (fillBlk bytes s).block = fillBlock bytes s.block := by rw [fillBlk]
@[simp] theorem fillBlk_host (bytes : List Byte) : (fillBlk bytes s).host = s.host := by rw [fillBlk]
@[simp] theorem fillBlk_free (bytes : List Byte) : (fillBlk bytes s).free = s.free := by rw [fillBlk]

@[simp] theorem releaseScratch_h : (releaseScratch s).h = s.h := rfl
@[simp] theorem releaseScratch_t : (releaseScratch s).t = s.t := rfl
@[simp] theorem releaseScratch_phase : (releaseScratch s).phase = s.phase := rfl
@[simp] theorem releaseScratch_nn : (releaseScratch s).nn = s.nn := rfl
@[simp] theorem releaseScratch_kk : (releaseScratch s).kk = s.kk := rfl
@[simp] theorem releaseScratch_blk : (releaseScratch s).blk = s.blk := rfl
@[simp] theorem releaseScratch_fault : (releaseScratch s).fault = s.fault := rfl
@[simp] theorem releaseScratch_resp : (releaseScratch s).resp = s.resp := rfl
@[simp] theorem releaseScratch_dvalid : (releaseScratch s).dvalid = s.dvalid := rfl
@[simp] theorem releaseScratch_traceEn : (releaseScratch s).traceEn = s.traceEn := rfl
@[simp] theorem releaseScratch_dout : (releaseScratch s).dout = s.dout := rfl
@[simp] theorem releaseScratch_dlen : (releaseScratch s).dlen = s.dlen := rfl
@[simp] theorem releaseScratch_ready : (releaseScratch s).ready = s.ready := rfl
@[simp] theorem releaseScratch_scratch : (releaseScratch s).scratch = Config.unwrittenScratch s.free := rfl
@[simp] theorem releaseScratch_trace : (releaseScratch s).trace = s.trace := rfl
@[simp] theorem releaseScratch_block : (releaseScratch s).block = s.block := rfl
@[simp] theorem releaseScratch_host : (releaseScratch s).host = s.host := rfl
@[simp] theorem releaseScratch_free : (releaseScratch s).free = s.free + 1 := rfl

@[simp] theorem setMicroResult_h (w : Word) : (setMicroResult w s).h = s.h := rfl
@[simp] theorem setMicroResult_t (w : Word) : (setMicroResult w s).t = s.t := rfl
@[simp] theorem setMicroResult_phase (w : Word) : (setMicroResult w s).phase = s.phase := rfl
@[simp] theorem setMicroResult_nn (w : Word) : (setMicroResult w s).nn = s.nn := rfl
@[simp] theorem setMicroResult_kk (w : Word) : (setMicroResult w s).kk = s.kk := rfl
@[simp] theorem setMicroResult_blk (w : Word) : (setMicroResult w s).blk = s.blk := rfl
@[simp] theorem setMicroResult_fault (w : Word) : (setMicroResult w s).fault = s.fault := rfl
@[simp] theorem setMicroResult_resp (w : Word) : (setMicroResult w s).resp = s.resp := rfl
@[simp] theorem setMicroResult_dvalid (w : Word) : (setMicroResult w s).dvalid = s.dvalid := rfl
@[simp] theorem setMicroResult_traceEn (w : Word) : (setMicroResult w s).traceEn = s.traceEn := rfl
@[simp] theorem setMicroResult_dout (w : Word) : (setMicroResult w s).dout = s.dout := rfl
@[simp] theorem setMicroResult_dlen (w : Word) : (setMicroResult w s).dlen = s.dlen := rfl
@[simp] theorem setMicroResult_ready (w : Word) : (setMicroResult w s).ready = s.ready := rfl
@[simp] theorem setMicroResult_scratch (w : Word) : (setMicroResult w s).scratch = { s.scratch with microResult := w } := rfl
@[simp] theorem setMicroResult_trace (w : Word) : (setMicroResult w s).trace = s.trace := rfl
@[simp] theorem setMicroResult_block (w : Word) : (setMicroResult w s).block = s.block := rfl
@[simp] theorem setMicroResult_host (w : Word) : (setMicroResult w s).host = s.host := rfl
@[simp] theorem setMicroResult_free (w : Word) : (setMicroResult w s).free = s.free := rfl

@[simp] theorem gstepOp_h (r : Fin 10) (g : Fin 8) : (gstepOp r g s).h = s.h := rfl
@[simp] theorem gstepOp_t (r : Fin 10) (g : Fin 8) : (gstepOp r g s).t = s.t := rfl
@[simp] theorem gstepOp_phase (r : Fin 10) (g : Fin 8) : (gstepOp r g s).phase = s.phase := rfl
@[simp] theorem gstepOp_nn (r : Fin 10) (g : Fin 8) : (gstepOp r g s).nn = s.nn := rfl
@[simp] theorem gstepOp_kk (r : Fin 10) (g : Fin 8) : (gstepOp r g s).kk = s.kk := rfl
@[simp] theorem gstepOp_blk (r : Fin 10) (g : Fin 8) : (gstepOp r g s).blk = s.blk := rfl
@[simp] theorem gstepOp_fault (r : Fin 10) (g : Fin 8) : (gstepOp r g s).fault = s.fault := rfl
@[simp] theorem gstepOp_resp (r : Fin 10) (g : Fin 8) : (gstepOp r g s).resp = s.resp := rfl
@[simp] theorem gstepOp_dvalid (r : Fin 10) (g : Fin 8) : (gstepOp r g s).dvalid = s.dvalid := rfl
@[simp] theorem gstepOp_traceEn (r : Fin 10) (g : Fin 8) : (gstepOp r g s).traceEn = s.traceEn := rfl
@[simp] theorem gstepOp_dout (r : Fin 10) (g : Fin 8) : (gstepOp r g s).dout = s.dout := rfl
@[simp] theorem gstepOp_dlen (r : Fin 10) (g : Fin 8) : (gstepOp r g s).dlen = s.dlen := rfl
@[simp] theorem gstepOp_ready (r : Fin 10) (g : Fin 8) : (gstepOp r g s).ready = s.ready := rfl
@[simp] theorem gstepOp_block (r : Fin 10) (g : Fin 8) : (gstepOp r g s).block = s.block := rfl
@[simp] theorem gstepOp_host (r : Fin 10) (g : Fin 8) : (gstepOp r g s).host = s.host := rfl
@[simp] theorem gstepOp_free (r : Fin 10) (g : Fin 8) : (gstepOp r g s).free = s.free := rfl

@[simp] theorem newSession_h (nn kk : BitVec 6) : (newSession nn kk s).h = initialH nn kk := rfl
@[simp] theorem newSession_t (nn kk : BitVec 6) : (newSession nn kk s).t = 0 := rfl
@[simp] theorem newSession_phase (nn kk : BitVec 6) : (newSession nn kk s).phase = .absorbing := rfl
@[simp] theorem newSession_nn (nn kk : BitVec 6) : (newSession nn kk s).nn = nn := rfl
@[simp] theorem newSession_kk (nn kk : BitVec 6) : (newSession nn kk s).kk = kk := rfl
@[simp] theorem newSession_blk (nn kk : BitVec 6) : (newSession nn kk s).blk = 0 := rfl
@[simp] theorem newSession_fault (nn kk : BitVec 6) : (newSession nn kk s).fault = s.fault := rfl
@[simp] theorem newSession_resp (nn kk : BitVec 6) : (newSession nn kk s).resp = s.resp := rfl
@[simp] theorem newSession_dvalid (nn kk : BitVec 6) : (newSession nn kk s).dvalid = false := rfl
@[simp] theorem newSession_traceEn (nn kk : BitVec 6) : (newSession nn kk s).traceEn = s.traceEn := rfl
@[simp] theorem newSession_dout (nn kk : BitVec 6) : (newSession nn kk s).dout = s.dout := rfl
@[simp] theorem newSession_dlen (nn kk : BitVec 6) : (newSession nn kk s).dlen = s.dlen := rfl
@[simp] theorem newSession_ready (nn kk : BitVec 6) : (newSession nn kk s).ready = s.ready := rfl
@[simp] theorem newSession_scratch (nn kk : BitVec 6) : (newSession nn kk s).scratch = s.scratch := rfl
@[simp] theorem newSession_trace (nn kk : BitVec 6) : (newSession nn kk s).trace = s.trace := rfl
@[simp] theorem newSession_block (nn kk : BitVec 6) : (newSession nn kk s).block = s.block := rfl
@[simp] theorem newSession_host (nn kk : BitVec 6) : (newSession nn kk s).host = s.host := rfl
@[simp] theorem newSession_free (nn kk : BitVec 6) : (newSession nn kk s).free = s.free := rfl

@[simp] theorem enterF_h (final : Bool) : (enterF final s).h = s.h := rfl
@[simp] theorem enterF_t (final : Bool) : (enterF final s).t = s.t := rfl
@[simp] theorem enterF_phase (final : Bool) : (enterF final s).phase = s.phase := rfl
@[simp] theorem enterF_nn (final : Bool) : (enterF final s).nn = s.nn := rfl
@[simp] theorem enterF_kk (final : Bool) : (enterF final s).kk = s.kk := rfl
@[simp] theorem enterF_blk (final : Bool) : (enterF final s).blk = s.blk := rfl
@[simp] theorem enterF_fault (final : Bool) : (enterF final s).fault = s.fault := rfl
@[simp] theorem enterF_resp (final : Bool) : (enterF final s).resp = s.resp := rfl
@[simp] theorem enterF_dvalid (final : Bool) : (enterF final s).dvalid = s.dvalid := rfl
@[simp] theorem enterF_traceEn (final : Bool) : (enterF final s).traceEn = s.traceEn := rfl
@[simp] theorem enterF_dout (final : Bool) : (enterF final s).dout = s.dout := rfl
@[simp] theorem enterF_dlen (final : Bool) : (enterF final s).dlen = s.dlen := rfl
@[simp] theorem enterF_ready (final : Bool) : (enterF final s).ready = s.ready := rfl
@[simp] theorem enterF_scratch (final : Bool) : (enterF final s).scratch = { s.scratch with v := buildV s.h s.t final, f := final, r := 0, g := 0 } := rfl
@[simp] theorem enterF_trace (final : Bool) : (enterF final s).trace = s.trace := rfl
@[simp] theorem enterF_block (final : Bool) : (enterF final s).block = s.block := rfl
@[simp] theorem enterF_host (final : Bool) : (enterF final s).host = s.host := rfl
@[simp] theorem enterF_free (final : Bool) : (enterF final s).free = s.free := rfl

@[simp] theorem foldH_h : (foldH s).h = foldBack s.h s.scratch.v := rfl
@[simp] theorem foldH_t : (foldH s).t = s.t := rfl
@[simp] theorem foldH_phase : (foldH s).phase = s.phase := rfl
@[simp] theorem foldH_nn : (foldH s).nn = s.nn := rfl
@[simp] theorem foldH_kk : (foldH s).kk = s.kk := rfl
@[simp] theorem foldH_blk : (foldH s).blk = s.blk := rfl
@[simp] theorem foldH_fault : (foldH s).fault = s.fault := rfl
@[simp] theorem foldH_resp : (foldH s).resp = s.resp := rfl
@[simp] theorem foldH_dvalid : (foldH s).dvalid = s.dvalid := rfl
@[simp] theorem foldH_traceEn : (foldH s).traceEn = s.traceEn := rfl
@[simp] theorem foldH_dout : (foldH s).dout = s.dout := rfl
@[simp] theorem foldH_dlen : (foldH s).dlen = s.dlen := rfl
@[simp] theorem foldH_ready : (foldH s).ready = s.ready := rfl
@[simp] theorem foldH_scratch : (foldH s).scratch = s.scratch := rfl
@[simp] theorem foldH_trace : (foldH s).trace = s.trace := rfl
@[simp] theorem foldH_block : (foldH s).block = s.block := rfl
@[simp] theorem foldH_host : (foldH s).host = s.host := rfl
@[simp] theorem foldH_free : (foldH s).free = s.free := rfl

@[simp] theorem beginCompression_h (keep : Nat) (final : Bool) : (beginCompression keep final s).h = s.h := rfl
@[simp] theorem beginCompression_t (keep : Nat) (final : Bool) : (beginCompression keep final s).t = add64 s.t (BitVec.ofNat 64 keep) := rfl
@[simp] theorem beginCompression_phase (keep : Nat) (final : Bool) : (beginCompression keep final s).phase = s.phase := rfl
@[simp] theorem beginCompression_nn (keep : Nat) (final : Bool) : (beginCompression keep final s).nn = s.nn := rfl
@[simp] theorem beginCompression_kk (keep : Nat) (final : Bool) : (beginCompression keep final s).kk = s.kk := rfl
@[simp] theorem beginCompression_blk (keep : Nat) (final : Bool) : (beginCompression keep final s).blk = s.blk := rfl
@[simp] theorem beginCompression_fault (keep : Nat) (final : Bool) : (beginCompression keep final s).fault = s.fault := rfl
@[simp] theorem beginCompression_resp (keep : Nat) (final : Bool) : (beginCompression keep final s).resp = s.resp := rfl
@[simp] theorem beginCompression_dvalid (keep : Nat) (final : Bool) : (beginCompression keep final s).dvalid = s.dvalid := rfl
@[simp] theorem beginCompression_traceEn (keep : Nat) (final : Bool) : (beginCompression keep final s).traceEn = s.traceEn := rfl
@[simp] theorem beginCompression_dout (keep : Nat) (final : Bool) : (beginCompression keep final s).dout = s.dout := rfl
@[simp] theorem beginCompression_dlen (keep : Nat) (final : Bool) : (beginCompression keep final s).dlen = s.dlen := rfl
@[simp] theorem beginCompression_ready (keep : Nat) (final : Bool) : (beginCompression keep final s).ready = false := rfl
@[simp] theorem beginCompression_trace (keep : Nat) (final : Bool) : (beginCompression keep final s).trace = s.trace := rfl
@[simp] theorem beginCompression_block (keep : Nat) (final : Bool) : (beginCompression keep final s).block = s.block := rfl
@[simp] theorem beginCompression_host (keep : Nat) (final : Bool) : (beginCompression keep final s).host = s.host := rfl
@[simp] theorem beginCompression_free (keep : Nat) (final : Bool) : (beginCompression keep final s).free = s.free := rfl

@[simp] theorem endCompression_h : (endCompression s).h = foldBack s.h s.scratch.v := rfl
@[simp] theorem endCompression_t : (endCompression s).t = s.t := rfl
@[simp] theorem endCompression_phase : (endCompression s).phase = if s.scratch.f then .finalized else s.phase := rfl
@[simp] theorem endCompression_nn : (endCompression s).nn = s.nn := rfl
@[simp] theorem endCompression_kk : (endCompression s).kk = s.kk := rfl
@[simp] theorem endCompression_blk : (endCompression s).blk = s.blk + 1 := rfl
@[simp] theorem endCompression_fault : (endCompression s).fault = s.fault := rfl
@[simp] theorem endCompression_resp : (endCompression s).resp = .ok := rfl
@[simp] theorem endCompression_dvalid : (endCompression s).dvalid = s.dvalid := rfl
@[simp] theorem endCompression_traceEn : (endCompression s).traceEn = s.traceEn := rfl
@[simp] theorem endCompression_dout : (endCompression s).dout = s.dout := rfl
@[simp] theorem endCompression_dlen : (endCompression s).dlen = s.dlen := rfl
@[simp] theorem endCompression_ready : (endCompression s).ready = true := rfl
@[simp] theorem endCompression_scratch : (endCompression s).scratch = Config.unwrittenScratch s.free := rfl
@[simp] theorem endCompression_trace : (endCompression s).trace = s.trace := rfl
@[simp] theorem endCompression_block : (endCompression s).block = s.block := rfl
@[simp] theorem endCompression_host : (endCompression s).host = s.host := rfl
@[simp] theorem endCompression_free : (endCompression s).free = s.free + 1 := rfl

@[simp] theorem advanceStepWord_h : (advanceStepWord s).h = s.h := rfl
@[simp] theorem advanceStepWord_t : (advanceStepWord s).t = s.t := rfl
@[simp] theorem advanceStepWord_phase : (advanceStepWord s).phase = s.phase := rfl
@[simp] theorem advanceStepWord_nn : (advanceStepWord s).nn = s.nn := rfl
@[simp] theorem advanceStepWord_kk : (advanceStepWord s).kk = s.kk := rfl
@[simp] theorem advanceStepWord_blk : (advanceStepWord s).blk = s.blk := rfl
@[simp] theorem advanceStepWord_fault : (advanceStepWord s).fault = s.fault := rfl
@[simp] theorem advanceStepWord_resp : (advanceStepWord s).resp = s.resp := rfl
@[simp] theorem advanceStepWord_dvalid : (advanceStepWord s).dvalid = s.dvalid := rfl
@[simp] theorem advanceStepWord_traceEn : (advanceStepWord s).traceEn = s.traceEn := rfl
@[simp] theorem advanceStepWord_dout : (advanceStepWord s).dout = s.dout := rfl
@[simp] theorem advanceStepWord_dlen : (advanceStepWord s).dlen = s.dlen := rfl
@[simp] theorem advanceStepWord_ready : (advanceStepWord s).ready = s.ready := rfl
@[simp] theorem advanceStepWord_scratch : (advanceStepWord s).scratch = { s.scratch with
    g := s.scratch.g + 1, r := if s.scratch.g = 7 then s.scratch.r + 1 else s.scratch.r } := rfl
@[simp] theorem advanceStepWord_trace : (advanceStepWord s).trace = s.trace := rfl
@[simp] theorem advanceStepWord_block : (advanceStepWord s).block = s.block := rfl
@[simp] theorem advanceStepWord_host : (advanceStepWord s).host = s.host := rfl
@[simp] theorem advanceStepWord_free : (advanceStepWord s).free = s.free := rfl

@[simp] theorem gstepOp_scratch_m (r : Fin 10) (g : Fin 8) : (gstepOp r g s).scratch.m = s.scratch.m := rfl
@[simp] theorem gstepOp_scratch_v (r : Fin 10) (g : Fin 8) : (gstepOp r g s).scratch.v = gstepV s.scratch.m r s.scratch.v g := rfl
@[simp] theorem gstepOp_scratch_gregs (r : Fin 10) (g : Fin 8) : (gstepOp r g s).scratch.gregs = mixG (gOperands s.scratch.m s.scratch.v r g) := rfl
@[simp] theorem gstepOp_scratch_r (r : Fin 10) (g : Fin 8) : (gstepOp r g s).scratch.r = r := rfl
@[simp] theorem gstepOp_scratch_g (r : Fin 10) (g : Fin 8) : (gstepOp r g s).scratch.g = g := rfl
@[simp] theorem gstepOp_scratch_f (r : Fin 10) (g : Fin 8) : (gstepOp r g s).scratch.f = s.scratch.f := rfl
@[simp] theorem gstepOp_scratch_microResult (r : Fin 10) (g : Fin 8) : (gstepOp r g s).scratch.microResult = s.scratch.microResult := rfl

@[simp] theorem beginCompression_scratch_m (keep : Nat) (final : Bool) : (beginCompression keep final s).scratch.m = loadBlock keep s.block := rfl
@[simp] theorem beginCompression_scratch_v (keep : Nat) (final : Bool) : (beginCompression keep final s).scratch.v = buildV s.h (add64 s.t (BitVec.ofNat 64 keep)) final := rfl
@[simp] theorem beginCompression_scratch_gregs (keep : Nat) (final : Bool) : (beginCompression keep final s).scratch.gregs = s.scratch.gregs := rfl
@[simp] theorem beginCompression_scratch_r (keep : Nat) (final : Bool) : (beginCompression keep final s).scratch.r = 0 := rfl
@[simp] theorem beginCompression_scratch_g (keep : Nat) (final : Bool) : (beginCompression keep final s).scratch.g = 0 := rfl
@[simp] theorem beginCompression_scratch_f (keep : Nat) (final : Bool) : (beginCompression keep final s).scratch.f = final := rfl
@[simp] theorem beginCompression_scratch_microResult (keep : Nat) (final : Bool) : (beginCompression keep final s).scratch.microResult = s.scratch.microResult := rfl

end Sys2Proof.Machine
end

