-- ==== Sys2Proof/Laws/Ops.lean ====
section
/-! SUPPORT. What the shared operations can do, said once each: sequencing, raising an error, the rounds, a whole
compression, the step. Later proofs cite these instead of unfolding the operations. -/

namespace Sys2Proof.Machine

/-! ### Sequencing and stopping -/

@[simp] theorem andThen_next (s : State) (k : State → Result) : andThen (.next s) k = k s := rfl

/-- `andThen` answers next exactly through a next state of its first part. -/
theorem andThen_eq_next {x : Result} {k : State → Result} {t : State} :
    andThen x k = .next t ↔ ∃ s, x = .next s ∧ k s = .next t := by
  cases x <;> simp [andThen]

/-- No operation of the unit stops: `Fault` is empty, and only a refusal could stand against a next state. -/
theorem andThen_isNext {x : Result} {k : State → Result} (hx : ∃ s, x = .next s) (hk : ∀ s, ∃ t, k s = .next t) :
    ∃ t, andThen x k = .next t := by
  obtain ⟨s, rfl⟩ := hx
  exact hk s

/-! ### The rounds -/

/-- Two states that differ in scratch and trace log only: what the rounds of a compression may touch. -/
def SameOutsideRounds (s t : State) : Prop := t = { s with scratch := t.scratch, trace := t.trace }

theorem SameOutsideRounds.refl (s : State) : SameOutsideRounds s s := rfl

theorem SameOutsideRounds.trans {s t u : State} (h : SameOutsideRounds s t) (h' : SameOutsideRounds t u) :
    SameOutsideRounds s u := by
  unfold SameOutsideRounds at *
  rw [h', h]

theorem gstepOp_outside (r : Fin 10) (g : Fin 8) (s : State) : SameOutsideRounds s (gstepOp r g s) := rfl

theorem emit_outside (ev : TraceEvent) (s : State) : SameOutsideRounds s (emit ev s) := rfl

/-- A fold of operations that each touch scratch and trace only does so too. -/
theorem foldl_outside {α : Type} (f : State → α → State) (hf : ∀ s a, SameOutsideRounds s (f s a)) (as : List α)
    (s : State) : SameOutsideRounds s (as.foldl f s) := by
  induction as generalizing s with
  | nil => exact .refl s
  | cons a as ih => exact (hf s a).trans (ih (f s a))

theorem gsteps_outside (r : Fin 10) (gs : List (Fin 8)) (s : State) :
    SameOutsideRounds s (gs.foldl (fun s g => gstepOp r g s) s) :=
  foldl_outside _ (fun s g => gstepOp_outside r g s) gs s

theorem roundOp_outside (r : Fin 10) (s : State) : SameOutsideRounds s (roundOp r s) :=
  (emit_outside _ s).trans ((gsteps_outside r gOrder _).trans (emit_outside _ _))

/-- The rounds touch scratch and trace only. -/
theorem runRounds_outside (s : State) : SameOutsideRounds s (runRounds s) :=
  foldl_outside _ (fun s r => roundOp_outside r s) roundOrder s

/-- The G steps of a list leave `m`, `f` and `microResult` alone and act on `v` as `gstepV` does. -/
theorem gsteps_scratch (r : Fin 10) (gs : List (Fin 8)) (s : State) :
    let t := gs.foldl (fun s g => gstepOp r g s) s
    t.scratch.m = s.scratch.m ∧ t.scratch.f = s.scratch.f ∧ t.scratch.microResult = s.scratch.microResult ∧
      t.scratch.v = gs.foldl (gstepV s.scratch.m r) s.scratch.v := by
  induction gs generalizing s with
  | nil => simp
  | cons g gs ih => simpa using ih (gstepOp r g s)

/-- A round leaves `m`, `f` and `microResult` alone and acts on `v` as `roundV` does (R124, R134). -/
theorem roundOp_scratch (r : Fin 10) (s : State) :
    (roundOp r s).scratch.m = s.scratch.m ∧ (roundOp r s).scratch.f = s.scratch.f ∧
      (roundOp r s).scratch.microResult = s.scratch.microResult ∧
      (roundOp r s).scratch.v = roundV s.scratch.m s.scratch.v r :=
  gsteps_scratch r gOrder (emitRoundPre r s)

theorem rounds_scratch (rs : List (Fin 10)) (s : State) :
    let t := rs.foldl (fun s r => roundOp r s) s
    t.scratch.m = s.scratch.m ∧ t.scratch.f = s.scratch.f ∧ t.scratch.microResult = s.scratch.microResult ∧
      t.scratch.v = rs.foldl (roundV s.scratch.m) s.scratch.v := by
  induction rs generalizing s with
  | nil => simp
  | cons r rs ih =>
    obtain ⟨hm, hf, hr, hv⟩ := roundOp_scratch r s
    simpa [hm, hf, hr, hv] using ih (roundOp r s)

/-- The ten rounds leave `m`, `f` and `microResult` alone and act on `v` as `roundsV` does (R134, R139). -/
theorem runRounds_scratch (s : State) :
    (runRounds s).scratch.m = s.scratch.m ∧ (runRounds s).scratch.f = s.scratch.f ∧
      (runRounds s).scratch.microResult = s.scratch.microResult ∧
      (runRounds s).scratch.v = roundsV s.scratch.m s.scratch.v :=
  rounds_scratch roundOrder s

/-! ### The events of a compression -/

/-- The events of the G steps of a list, from working vector `v` (R113). -/
def gstepEvents (blk : BitVec 64) (m : Words16) (r : Fin 10) : List (Fin 8) → Words16 → List TraceEvent
  | [], _ => []
  | g :: gs, v =>
    .gsnap blk r g (gOperands m v r g) (mixG (gOperands m v r g)) :: gstepEvents blk m r gs (gstepV m r v g)

/-- The ten events of round `r` from working vector `v` (R144). -/
def roundEvents (blk : BitVec 64) (m : Words16) (r : Fin 10) (v : Words16) : List TraceEvent :=
  .roundPre blk r v m :: (gstepEvents blk m r gOrder v ++ [.roundPost blk r (roundV m v r) m])

/-- The events of the rounds of a list, from working vector `v` (R145). -/
def roundsEvents (blk : BitVec 64) (m : Words16) : List (Fin 10) → Words16 → List TraceEvent
  | [], _ => []
  | r :: rs, v => roundEvents blk m r v ++ roundsEvents blk m rs (roundV m v r)

theorem gstepEvents_length (blk : BitVec 64) (m : Words16) (r : Fin 10) (gs : List (Fin 8)) (v : Words16) :
    (gstepEvents blk m r gs v).length = gs.length := by
  induction gs generalizing v with
  | nil => rfl
  | cons g gs ih => simp [gstepEvents, ih]

theorem roundEvents_length (blk : BitVec 64) (m : Words16) (r : Fin 10) (v : Words16) :
    (roundEvents blk m r v).length = 10 := by
  simp [roundEvents, gstepEvents_length, gOrder]

/-- The trace log after the G steps of a list. -/
theorem gsteps_trace (r : Fin 10) (gs : List (Fin 8)) (s : State) :
    (gs.foldl (fun s g => gstepOp r g s) s).trace =
      if s.traceEn then s.trace ++ gstepEvents s.blk s.scratch.m r gs s.scratch.v else s.trace := by
  induction gs generalizing s with
  | nil => simp [gstepEvents]
  | cons g gs ih =>
    rw [List.foldl_cons, ih]
    cases h : s.traceEn <;> simp [h, gstepOp, emit, gstepEvents, gstepV]

/-- The trace log after a round: R144 around R113. -/
theorem roundOp_trace (r : Fin 10) (s : State) :
    (roundOp r s).trace =
      if s.traceEn then s.trace ++ roundEvents s.blk s.scratch.m r s.scratch.v else s.trace := by
  obtain ⟨hm, -, -, hv⟩ := gsteps_scratch r gOrder (emitRoundPre r s)
  have ht := gsteps_trace r gOrder (emitRoundPre r s)
  have ho := gsteps_outside r gOrder (emitRoundPre r s)
  unfold roundOp
  generalize gOrder.foldl (fun s g => gstepOp r g s) (emitRoundPre r s) = t at *
  have hen : t.traceEn = s.traceEn := by rw [ho]; rfl
  have hblk : t.blk = s.blk := by rw [ho]; rfl
  cases h : s.traceEn <;> simp_all [emitRoundPost, emitRoundPre, emit, roundEvents, roundV]

theorem rounds_trace (rs : List (Fin 10)) (s : State) :
    (rs.foldl (fun s r => roundOp r s) s).trace =
      if s.traceEn then s.trace ++ roundsEvents s.blk s.scratch.m rs s.scratch.v else s.trace := by
  induction rs generalizing s with
  | nil => simp [roundsEvents]
  | cons r rs ih =>
    obtain ⟨hm, -, -, hv⟩ := roundOp_scratch r s
    have ht := roundOp_trace r s
    have ho := roundOp_outside r s
    rw [List.foldl_cons, ih]
    generalize roundOp r s = t at *
    have hen : t.traceEn = s.traceEn := by rw [ho]
    have hblk : t.blk = s.blk := by rw [ho]
    cases h : s.traceEn <;> simp_all [roundsEvents]

/-- The trace log after the ten rounds (R145). -/
theorem runRounds_trace (s : State) :
    (runRounds s).trace =
      if s.traceEn then s.trace ++ roundsEvents s.blk s.scratch.m roundOrder s.scratch.v else s.trace :=
  rounds_trace roundOrder s

/-! ### A whole compression -/

/-- A full block is loaded as it is (R178). -/
theorem loadBlock_full (b : Block) : loadBlock 64 b = blockWords b := by
  have h : padBlock 64 b = b := by
    ext k hk
    simp [padBlock]
  rw [loadBlock, h]

/-- Everything a compression of UPDATE or FINISH does (R167, R169, R145). -/
theorem absorb_eq (keep : Nat) (final : Bool) (s : State) :
    absorb keep final s =
      { s with
        h := F s.h (loadBlock keep s.block) (add64 s.t (BitVec.ofNat 64 keep)) final,
        t := add64 s.t (BitVec.ofNat 64 keep), blk := s.blk + 1, ready := true, resp := .ok,
        phase := if final then .finalized else s.phase, scratch := Config.unwrittenScratch s.free,
        free := s.free + 1,
        trace := if s.traceEn then
            s.trace ++ roundsEvents s.blk (loadBlock keep s.block) roundOrder
              (buildV s.h (add64 s.t (BitVec.ofNat 64 keep)) final)
          else s.trace } := by
  have ho := runRounds_outside (beginCompression keep final s)
  have ht := runRounds_trace (beginCompression keep final s)
  obtain ⟨-, hf, -, hv⟩ := runRounds_scratch (beginCompression keep final s)
  have hs : ∀ u v : State, SameOutsideRounds u v →
      endCompression v =
        { u with
          h := foldBack u.h v.scratch.v, blk := u.blk + 1, ready := true, resp := .ok,
          phase := if v.scratch.f then .finalized else u.phase, scratch := Config.unwrittenScratch u.free,
          free := u.free + 1, trace := v.trace } := by
    intro u v h
    rw [h]
    rfl
  unfold absorb
  rw [hs _ _ ho, hf, hv, ht]
  rfl

section AbsorbFields

variable (keep : Nat) (final : Bool) (s : State)

@[simp] theorem absorb_h :
    (absorb keep final s).h = F s.h (loadBlock keep s.block) (add64 s.t (BitVec.ofNat 64 keep)) final := by
  rw [absorb_eq]
@[simp] theorem absorb_t : (absorb keep final s).t = add64 s.t (BitVec.ofNat 64 keep) := by
  rw [absorb_eq]
@[simp] theorem absorb_phase : (absorb keep final s).phase = if final then .finalized else s.phase := by
  rw [absorb_eq]
@[simp] theorem absorb_nn : (absorb keep final s).nn = s.nn := by
  rw [absorb_eq]
@[simp] theorem absorb_kk : (absorb keep final s).kk = s.kk := by
  rw [absorb_eq]
@[simp] theorem absorb_blk : (absorb keep final s).blk = s.blk + 1 := by
  rw [absorb_eq]
@[simp] theorem absorb_fault : (absorb keep final s).fault = s.fault := by
  rw [absorb_eq]
@[simp] theorem absorb_resp : (absorb keep final s).resp = .ok := by
  rw [absorb_eq]
@[simp] theorem absorb_dvalid : (absorb keep final s).dvalid = s.dvalid := by
  rw [absorb_eq]
@[simp] theorem absorb_traceEn : (absorb keep final s).traceEn = s.traceEn := by
  rw [absorb_eq]
@[simp] theorem absorb_dout : (absorb keep final s).dout = s.dout := by
  rw [absorb_eq]
@[simp] theorem absorb_dlen : (absorb keep final s).dlen = s.dlen := by
  rw [absorb_eq]
@[simp] theorem absorb_ready : (absorb keep final s).ready = true := by
  rw [absorb_eq]
@[simp] theorem absorb_scratch : (absorb keep final s).scratch = Config.unwrittenScratch s.free := by
  rw [absorb_eq]
@[simp] theorem absorb_block : (absorb keep final s).block = s.block := by
  rw [absorb_eq]
@[simp] theorem absorb_host : (absorb keep final s).host = s.host := by
  rw [absorb_eq]
@[simp] theorem absorb_free : (absorb keep final s).free = s.free + 1 := by
  rw [absorb_eq]
@[simp] theorem absorb_trace : (absorb keep final s).trace =
    if s.traceEn then
      s.trace ++ roundsEvents s.blk (loadBlock keep s.block) roundOrder
        (buildV s.h (add64 s.t (BitVec.ofNat 64 keep)) final)
    else s.trace := by
  rw [absorb_eq]

end AbsorbFields

/-! ### The step -/

/-- A command presented to a ready unit is accepted (R75). -/
theorem step_command {s : State} {w : BitVec 16} {rest : List HostAction} (hh : s.host = .command w :: rest)
    (hr : s.ready = true) : step s = execWord w { s with host := rest } := by
  simp [step, hh, hr]

/-- The host's write of BLK (R64). -/
theorem step_fill {s : State} {bytes : List Byte} {rest : List HostAction} (hh : s.host = .fill bytes :: rest) :
    step s = .next (fillBlk bytes { s with host := rest }) := by
  simp [step, hh]

/-- Reset works whatever the unit is doing (R101). -/
theorem step_reset {s : State} {rest : List HostAction} (hh : s.host = .reset :: rest) :
    step s = exec .reset { s with host := rest } := by
  simp [step, hh]

end Sys2Proof.Machine
end

