-- ==== Sys2Proof/Laws/PerInstr.lean ====
section
/-! SUPPORT. The per-instruction family TableRow: the word an instruction encodes to carries the `match` bits of its row of
spec/opcode_table.json under the row's `mask`. -/

namespace Sys2Proof.Laws.TableRow

/-- `(mask, match)` of the rows that have them. -/
def maskMatch : Instr → Option (BitVec 16 × BitVec 16)
  | .nop => some (0xFFFF, 0x0000)
  | .init _ _ => some (0x8007, 0x0001)
  | .update => some (0xFFFF, 0x0002)
  | .finish _ => some (0xFC07, 0x0003)
  | .digest => some (0xFFFF, 0x0004)
  | .trace _ => some (0xFFF7, 0x0005)
  | .reservedOp6 _ => some (0x0007, 0x0006)
  | .reservedOp7 _ => some (0x0007, 0x0007)
  | .gstep _ _ | .add32 _ _ _ | .xor32 _ _ | .rotr _ _ | .g _ _ _ _ _ _ | .round _ | .f _ | .reset | .hash _ _ _ => none

/-- The instruction has a command word exactly when its row has a match, and the word fits the row. -/
def Statement (i : Instr) : Prop :=
  match encode i, maskMatch i with
  | some w, some (mask, value) => w &&& mask = value
  | none, none => True
  | _, _ => False

theorem nop : Statement .nop := rfl
theorem init (nn kk : BitVec 6) : Statement (.init nn kk) := by
  show initWord nn kk &&& 0x8007 = 0x0001
  revert nn kk; decide +kernel
theorem update : Statement .update := rfl
theorem finish (len : BitVec 7) : Statement (.finish len) := by
  show finishWord len &&& 0xFC07 = 0x0003
  revert len; decide +kernel
theorem digest : Statement .digest := rfl
theorem trace (en : Bool) : Statement (.trace en) := by
  show traceWord en &&& 0xFFF7 = 0x0005
  revert en; decide +kernel
theorem reservedOp6 (hi : BitVec 13) : Statement (.reservedOp6 hi) := by
  show reservedWord6 hi &&& 0x0007 = 0x0006
  apply BitVec.eq_of_toNat_eq
  have h : ∀ m, m &&& 7 = m % 8 := fun m => Nat.and_two_pow_sub_one_eq_mod m 3
  have hi' := hi.isLt
  simp [reservedWord6, h]
  try omega
theorem reservedOp7 (hi : BitVec 13) : Statement (.reservedOp7 hi) := by
  show reservedWord7 hi &&& 0x0007 = 0x0007
  apply BitVec.eq_of_toNat_eq
  have h : ∀ m, m &&& 7 = m % 8 := fun m => Nat.and_two_pow_sub_one_eq_mod m 3
  have hi' := hi.isLt
  simp [reservedWord7, h]
  try omega
theorem gstep (r : Fin 10) (g : Fin 8) : Statement (.gstep r g) := trivial
theorem add32 (x y : Word) (z : Option Word) : Statement (.add32 x y z) := trivial
theorem xor32 (x y : Word) : Statement (.xor32 x y) := trivial
theorem rotr (x : Word) (n : RotDist) : Statement (.rotr x n) := trivial
theorem g (a b c d m0 m1 : Word) : Statement (.g a b c d m0 m1) := trivial
theorem round (r : Fin 10) : Statement (.round r) := trivial
theorem f (final : Bool) : Statement (.f final) := trivial
theorem reset : Statement .reset := trivial
theorem hash (nn kk : BitVec 6) (msg : List Byte) : Statement (.hash nn kk msg) := trivial

end Sys2Proof.Laws.TableRow
end

