-- ==== Sys2Proof/Laws/Signal.lean ====
section
/-! SUPPORT. What the signal level can do: the events of a command word and their number, the events
of one cycle. -/

namespace Sys2Proof.Machine

theorem roundsEvents_length (blk : BitVec 64) (m : Words16) (rs : List (Fin 10)) (v : Words16) :
    (roundsEvents blk m rs v).length = 10 * rs.length := by
  induction rs generalizing v with
  | nil => rfl
  | cons r rs ih => simp [roundsEvents, roundEvents_length, ih]; omega

/-- Whether a command with this opcode can emit trace events (R145, R215). -/
def emits (op : BitVec 3) (traceEn : Bool) : Prop := traceEn = true ∧ (op = 2 ∨ op = 3)

/-- A command that cannot emit, and a word that decodes to none, leave the log alone; the others append at most 100. -/
def Appends (op : BitVec 3) (s : State) (x : Result) : Prop :=
  ∃ t evs, x = .next t ∧ t.trace = s.trace ++ evs ∧ evs.length ≤ 100 ∧ (¬ emits op s.traceEn → evs = [])

theorem appends_of_same {op : BitVec 3} {s t : State} (h : t.trace = s.trace) : Appends op s (.next t) :=
  ⟨t, [], rfl, by simp [h], by simp, fun _ => rfl⟩

theorem appends_absorb {op : BitVec 3} (hop : op = 2 ∨ op = 3) (keep : Nat) (final : Bool) (s : State) :
    Appends op s (.next (absorb keep final s)) := by
  cases h : s.traceEn
  · exact appends_of_same (by simp [h])
  · refine ⟨_, _, rfl, by rw [absorb_trace, h, if_pos rfl], ?_, fun hn => absurd ⟨h, hop⟩ hn⟩
    rw [roundsEvents_length]
    decide

/-- Every command word has a next state that only appends to the log, 100 events at most and none without tracing. -/
theorem execWord_appends (w : BitVec 16) (s : State) : Appends (opField w) s (execWord w s) := by
  have hi : ∀ nn kk, Appends (opField w) s (execInit nn kk s) := by
    intro nn kk
    unfold execInit
    split <;> exact appends_of_same rfl
  have hu : opField w = 2 → Appends (opField w) s (execUpdate s) := by
    intro h
    unfold execUpdate
    split
    · exact appends_absorb (.inl h) _ _ _
    · exact appends_of_same rfl
  have hf : opField w = 3 → ∀ len, Appends (opField w) s (execFinish len s) := by
    intro h len
    unfold execFinish
    split
    · exact appends_of_same rfl
    · split
      · exact appends_absorb (.inr h) _ _ _
      · exact appends_of_same rfl
  have hd : Appends (opField w) s (execDigest s) := by
    unfold execDigest
    split <;> exact appends_of_same rfl
  unfold execWord
  split
  · rename_i i hdec
    unfold decode at hdec
    simp only [] at hdec
    repeat' split at hdec
    all_goals first
      | cases hdec; done
      | (cases hdec
         first
           | exact appends_of_same rfl
           | exact hi _ _
           | exact hu (by assumption)
           | exact hf (by assumption) _
           | exact hd)
  · exact appends_of_same rfl

/-- The log after a command word is the log before and its `commandEvents`. -/
theorem execWord_trace (w : BitVec 16) (b : Block) (s : State) :
    ∃ t, execWord w { s with block := b } = .next t ∧ t.trace = s.trace ++ commandEvents w b s := by
  obtain ⟨t, evs, hx, ht, -, -⟩ := execWord_appends w { s with block := b }
  refine ⟨t, hx, ?_⟩
  have ht' : t.trace = s.trace ++ evs := ht
  simp [commandEvents, hx, ht']

theorem commandEvents_length_le (w : BitVec 16) (b : Block) (s : State) : (commandEvents w b s).length ≤ 100 := by
  obtain ⟨t, evs, hx, ht, hl, -⟩ := execWord_appends w { s with block := b }
  have ht' : t.trace = s.trace ++ evs := ht
  simpa [commandEvents, hx, ht'] using hl

/-- No events without tracing, and none but from UPDATE and FINISH (R214, R215). -/
theorem commandEvents_eq_nil {w : BitVec 16} {b : Block} {s : State} (h : ¬ emits (opField w) s.traceEn) :
    commandEvents w b s = [] := by
  obtain ⟨t, evs, hx, ht, -, hn⟩ := execWord_appends w { s with block := b }
  have ht' : t.trace = s.trace ++ evs := ht
  simp [commandEvents, hx, ht', hn h]

/-- What is on show is the next of the events that have not shown, in their order: with what has shown it is a longer first
part of the events. -/
theorem eventsNow_extends (c : Running) (s : State) :
    (commandEvents c.word c.sampled s).take c.shown ++ eventsNow c s =
      (commandEvents c.word c.sampled s).take (c.shown + (eventsNow c s).length) := by
  unfold eventsNow
  dsimp only
  split
  · rw [List.take_append_drop, List.take_of_length_le (by simp; omega)]
  · split
    · rw [← List.take_add, List.length_take, List.length_drop, Nat.min_def]
      split
      · rfl
      · rw [List.take_of_length_le (by omega), List.take_of_length_le (by omega)]
    · simp

/-- No event is later than the response (R102). -/
theorem eventsNow_all {c : Running} (h : c.left = 0) (s : State) :
    (commandEvents c.word c.sampled s).length ≤ c.shown + (eventsNow c s).length := by
  simp [eventsNow, h]; omega

/-- Before the response at most one event is on show. -/
theorem eventsNow_length_le_one {c : Running} (h : c.left ≠ 0) (s : State) : (eventsNow c s).length ≤ 1 := by
  unfold eventsNow
  dsimp only
  rw [if_neg h]
  split <;> simp

/-- Where there is a cycle for every event, one is on show at most, and there is a cycle for every event after it. -/
theorem eventsNow_fits {c : Running} {s : State}
    (h : (commandEvents c.word c.sampled s).length ≤ c.shown + c.left + 1) :
    (eventsNow c s).length ≤ 1 ∧
      (commandEvents c.word c.sampled s).length ≤ c.shown + (eventsNow c s).length + c.left := by
  unfold eventsNow
  dsimp only
  split
  · simp; omega
  · split
    · simp; omega
    · rename_i hn
      simp at hn ⊢
      omega

end Sys2Proof.Machine
end

