-- ==== Sys2Proof/Tests/Slice0.lean ====
section
/-! SUPPORT. The model's own tests: the well-formedness smoke test, words written out from the encodings of spec/, one or two
small steps per instruction with the values of spec/95_test_vectors.md, and for every obligation that has hypotheses a
concrete witness of them. -/

-- One test after another: as many tests at once as there are tasks would need a thread each.
set_option Elab.async false

namespace Sys2Proof.Tests

open Sys2Proof.Machine

/-! ### Helpers -/

/-- Eight words, sixteen words, bytes from their start on (zeros after it). -/
def words8 (ws : List Word) : Words8 := Vector.ofFn fun i => ws.getD i.val 0
def words16 (ws : List Word) : Words16 := Vector.ofFn fun i => ws.getD i.val 0
def block (bs : List Byte) : Block := Vector.ofFn fun i => bs.getD i.val 0
def buffer (bs : List Byte) : DigestBuffer := Vector.ofFn fun i => bs.getD i.val 0

def noScratch : Scratch :=
  { m := words16 [], v := words16 [], gregs := ⟨0, 0, 0, 0, 0, 0, 0, 0⟩, r := 0, g := 0, f := false, microResult := 0 }

/-- The hash state after `INIT 32, 0` (95_test_vectors.md, `hI`). -/
def hI : Words8 :=
  words8 [0x6B08E647, 0xBB67AE85, 0x3C6EF372, 0xA54FF53A, 0x510E527F, 0x9B05688C, 0x1F83D9AB, 0x5BE0CD19]

/-- The hash state of "abc" after FINISH 3 (95_test_vectors.md section 4). -/
def hAbc : Words8 :=
  words8 [0x8C5E8C50, 0xE2147C32, 0xA32BA7E1, 0x2F45EB4E, 0x208B4537, 0x293AD69E, 0x4C9B994D, 0x82596786]

def dAbc : DigestBuffer :=
  buffer [0x50, 0x8c, 0x5e, 0x8c, 0x32, 0x7c, 0x14, 0xe2, 0xe1, 0xa7, 0x2b, 0xa3, 0x4e, 0xeb, 0x45, 0x2f,
    0x37, 0x45, 0x8b, 0x20, 0x9e, 0xd6, 0x3a, 0x29, 0x4d, 0x99, 0x9b, 0x4c, 0x86, 0x67, 0x59, 0x82]

/-- An idle unit in a phase of a session `INIT 32, 0`, nothing absorbed, nothing recorded, an all-zero block. -/
def idle (p : Phase) : State :=
  { h := hI, t := 0, phase := p, nn := 32, kk := 0, blk := 0, fault := 0, resp := .ok, dvalid := false, traceEn := false,
    dout := buffer [], dlen := 0, ready := true, scratch := noScratch, trace := [], block := block [], host := [], free := 7 }

/-- A unit inside the compression of a non-final block, at step word `(r, g)`. -/
def busy (r : Fin 10) (g : Fin 8) : State :=
  { idle .absorbing with t := 64, ready := false, scratch := { noScratch with r := r, g := g } }

/-- The unit after the digest of "abc" was extracted. -/
def extracted : State :=
  { idle .finalized with h := hAbc, t := 3, blk := 1, dvalid := true, dlen := 32, dout := dAbc }

/-- The answer is a next state with a property. -/
def nextHas (x : Result) (p : State → Bool) : Bool :=
  match x with
  | .next t => p t
  | .fault _ => false
  | .refused _ => false

/-! ### Well-formedness -/

theorem test_illformed_finish_65 : (Instr.finish 65).wellFormed = false := by decide
theorem test_illformed_finish_127 : (Instr.finish 127).wellFormed = false := by decide
theorem test_wellformed_finish_64 : (Instr.finish 64).wellFormed = true := by decide

/-! ### Decoding: words written out from R78 to R81, R83, R90 and 95_test_vectors.md section 8 -/

theorem test_decode_nop : decode 0b0000000000000_000 = .ok .nop := by decide
theorem test_decode_init_32_0 : decode 0b0_000000_100000_001 = .ok (.init 32 0) := by decide
theorem test_decode_init_28_16 : decode 0x20E1 = .ok (.init 28 16) := by decide
theorem test_decode_init_illegal_lengths : decode 0x4201 = .ok (.init 0 33) := by decide
theorem test_decode_update : decode 0b0000000000000_010 = .ok .update := by decide
theorem test_decode_finish_3 : decode 0b000000_0000011_011 = .ok (.finish 3) := by decide
theorem test_decode_finish_64 : decode 0x0203 = .ok (.finish 64) := by decide
theorem test_decode_digest : decode 0b0000000000000_100 = .ok .digest := by decide
theorem test_decode_trace_off : decode 0x0005 = .ok (.trace false) := by decide
theorem test_decode_trace_on : decode 0b000000000000_1_101 = .ok (.trace true) := by decide
theorem test_decode_reserved_op_6 : decode 0xFFFE = .ok (.reservedOp6 0x1FFF) := by decide
theorem test_decode_reserved_op_7 : decode 0x0007 = .ok (.reservedOp7 0) := by decide
theorem test_decode_rejects_upper_bits :
    ([0x0008, 0x8000, 0x8101, 0x000A, 0x0403, 0x000C, 0x0015].all fun w => decode w = .error .reservedBits) = true := by
  decide +kernel
theorem test_decode_rejects_finish_65_127 :
    decode 0x020B = .error .finishLength ∧ decode 0x03FB = .error .finishLength := by decide
theorem test_step_word_0 : decodeStep 0b0000_000 = some (.gstep 0 0) := by decide
theorem test_step_word_79 : decodeStep 0b1001_111 = some (.gstep 9 7) := by decide
theorem test_step_word_80_none : decodeStep 0b1010_000 = none := by decide
theorem test_encode_examples :
    encode (.init 16 0) = some 0x0081 ∧ encode (.init 63 63) = some 0x7FF9 ∧ encode (.finish 63) = some 0x01FB ∧
      encode (.trace true) = some 0x000D := by decide
theorem test_table_word_command : decodeTableWord 16 0x0203 = some (.finish 64) := by decide
theorem test_table_word_step : decodeTableWord 8 0x4F = some (.gstep 9 7) := by decide

/-! ### Word operations and G (95_test_vectors.md sections 2 and 3) -/

theorem test_add32_wraps :
    nextHas (exec (.add32 0xFFFFFFFF 1 none) (idle .init)) (fun t => t.scratch.microResult = 0) = true := by decide +kernel
theorem test_add32_three :
    nextHas (exec (.add32 0xFFFFFFFF 0xFFFFFFFF (some 0xFFFFFFFF)) (idle .init))
      (fun t => t.scratch.microResult = 0xFFFFFFFD) = true := by decide +kernel
theorem test_xor32 :
    nextHas (exec (.xor32 0x510E527C 0xBC7A9B27) (idle .init)) (fun t => t.scratch.microResult = 0xED74C95B) = true := by
  decide +kernel
theorem test_rotr_7 :
    nextHas (exec (.rotr 0x12345678 .r7) (idle .init)) (fun t => t.scratch.microResult = 0xF02468AC) = true := by
  decide +kernel
theorem test_rotr_12 :
    nextHas (exec (.rotr 0x12345678 .r12) (idle .init)) (fun t => t.scratch.microResult = 0x67812345) = true := by
  decide +kernel
theorem test_g12 :
    nextHas (exec (.g 0x6B08E647 0x510E527F 0x6A09E667 0x510E527C 0x00636261 0) (idle .init)) (fun t => t.scratch.gregs =
      ⟨0xBC7A9B27, 0xC95BED74, 0x3365D3DB, 0x1A4626B8, 0xD6C0C1DF, 0xAB1F9B2C, 0xDE856F07, 0x7F898693⟩) = true := by
  decide +kernel
theorem test_g13 :
    nextHas (exec (.g 0x01234567 0x89ABCDEF 0xFEDCBA98 0x76543210 0xDEADBEEF 0xCAFEBABE) (idle .init)) (fun t =>
      t.scratch.gregs =
        ⟨0x697CD245, 0xE0551F28, 0xDF31D9C0, 0x42F569A1, 0x7770F6A4, 0x8C9725E9, 0x6BC8FFA9, 0x10527B2C⟩) = true := by
  decide +kernel

/-! ### GSTEP, ROUND, F (95_test_vectors.md section 4: the compression of "abc") -/

/-- The working vector of "abc" after steps 1 to 3 of F. -/
def vAbc : Words16 :=
  words16 [0x6B08E647, 0xBB67AE85, 0x3C6EF372, 0xA54FF53A, 0x510E527F, 0x9B05688C, 0x1F83D9AB, 0x5BE0CD19,
    0x6A09E667, 0xBB67AE85, 0x3C6EF372, 0xA54FF53A, 0x510E527C, 0x9B05688C, 0xE07C2654, 0x5BE0CD19]

def inAbc : State :=
  { idle .absorbing with
    t := 3, traceEn := true, scratch := { noScratch with m := words16 [0x00636261], v := vAbc, f := true } }

theorem test_gstep_0_0 :
    nextHas (exec (.gstep 0 0) inAbc) (fun t => t.trace.length = 1 ∧ t.scratch.v = words16 [0xD6C0C1DF, 0xBB67AE85,
      0x3C6EF372, 0xA54FF53A, 0x7F898693, 0x9B05688C, 0x1F83D9AB, 0x5BE0CD19, 0xDE856F07, 0xBB67AE85, 0x3C6EF372,
      0xA54FF53A, 0xAB1F9B2C, 0x9B05688C, 0xE07C2654, 0x5BE0CD19]) = true := by decide +kernel
theorem test_round_0 :
    nextHas (exec (.round 0) inAbc) (fun t => t.trace.length = 10 ∧ t.scratch.v = words16 [0x16A3242E, 0xD7B5E238,
      0xCE8CE24B, 0x927AEDE1, 0xA7B430D9, 0x93A4A14E, 0xA44E7C31, 0x41D4759B, 0x95BF33D3, 0x9A99C181, 0x608A3A6B,
      0xB666383E, 0x7A8DD50F, 0xBE378ED7, 0x353D1EE6, 0x3BB44C6B]) = true := by decide +kernel
theorem test_f_abc : nextHas (exec (.f true) inAbc) (fun t => t.h = hAbc ∧ t.trace.length = 100) = true := by
  decide +kernel
theorem test_builds_vAbc : buildV hI 3 true = vAbc := by decide +kernel

/-! ### The commands (95_test_vectors.md sections 4, 6, 8 and 9) -/

theorem test_nop_clears_resp :
    nextHas (exec .nop { idle .init with resp := .stateError, fault := 2 }) (fun t => t.resp = .ok ∧ t.fault = 2) = true := by
  decide +kernel
theorem test_init_28_16 :
    nextHas (exec (.init 28 16) { idle .finalized with h := hAbc, t := 3, blk := 1, dvalid := true })
      (fun t => t.h = words8 [0x6B08F67B, 0xBB67AE85, 0x3C6EF372, 0xA54FF53A, 0x510E527F, 0x9B05688C, 0x1F83D9AB,
        0x5BE0CD19] ∧ t.t = 0 ∧ t.blk = 0 ∧ t.phase = .absorbing ∧ t.dvalid = false) = true := by decide +kernel
theorem test_init_33 :
    nextHas (exec (.init 33 0) (idle .absorbing)) (fun t => t.resp = .configError ∧ t.fault = 1 ∧ t.phase = .absorbing) =
      true := by decide +kernel
theorem test_update_counts :
    nextHas (exec .update { idle .absorbing with t := 0xFFFFFFC0, block := Vector.ofFn fun k => BitVec.ofNat 8 k.val })
      (fun t => t.t = 0x100000000 ∧ t.blk = 1 ∧ t.phase = .absorbing ∧ t.trace = []) = true := by decide +kernel
theorem test_update_first_block :
    nextHas (exec .update { idle .absorbing with block := Vector.ofFn fun k => BitVec.ofNat 8 k.val })
      (fun t => t.h = words8 [0x69B86EDC, 0x9C74BB75, 0x25BD102E, 0x83F24029, 0x9A9D32C1, 0xA02250BB, 0x3AA0A774,
        0xE4B93E1D]) = true := by decide +kernel
theorem test_finish_3_pads :
    nextHas (exec (.finish 3) { idle .absorbing with block := block ([0x61, 0x62, 0x63] ++ List.replicate 61 0xAA) })
      (fun t => t.h = hAbc ∧ t.t = 3 ∧ t.phase = .finalized) = true := by decide +kernel
theorem test_finish_65_in_every_phase :
    ([Phase.init, .absorbing, .finalized].all fun p =>
      nextHas (exec (.finish 65) (idle p)) (fun t => t.resp = .illegalCommand ∧ t.fault = 4 ∧ t.phase = p)) = true := by
  decide +kernel
theorem test_digest_5 :
    nextHas (exec .digest { idle .finalized with nn := 5, h := words8 [0xBA574DFE, 0x0F71E307, 0x8AD54A89] })
      (fun t => t.dlen = 5 ∧ t.dvalid = true ∧ t.dout = buffer [0xFE, 0x4D, 0x57, 0xBA, 0x07]) = true := by decide +kernel
theorem test_digest_too_early :
    nextHas (exec .digest (idle .absorbing)) (fun t => t.resp = .stateError ∧ t.fault = 2 ∧ t.dvalid = false) = true := by
  decide +kernel
theorem test_trace_on :
    nextHas (exec (.trace true) (idle .absorbing)) (fun t => t.traceEn = true ∧ t.phase = .absorbing) = true := by
  decide +kernel
theorem test_reserved_ops :
    nextHas (exec (.reservedOp6 0) (idle .finalized)) (fun t => t.resp = .illegalCommand ∧ t.fault = 4) = true ∧
      nextHas (exec (.reservedOp7 0x1FFF) (idle .init)) (fun t => t.resp = .illegalCommand ∧ t.fault = 4) = true := by
  decide +kernel
theorem test_reset :
    nextHas (exec .reset { extracted with fault := 7, traceEn := true })
      (fun t => t.phase = .init ∧ t.fault = 0 ∧ t.dvalid = false ∧ t.traceEn = false ∧ t.block = extracted.block) = true := by
  decide +kernel
theorem test_hash_abc :
    nextHas (exec (.hash 32 0 [0x61, 0x62, 0x63]) (idle .init)) (fun t => t.dout = dAbc ∧ t.t = 3 ∧ t.blk = 1) = true := by
  decide +kernel
theorem test_hash_abc_1 :
    nextHas (exec (.hash 1 0 [0x61, 0x62, 0x63]) (idle .finalized)) (fun t => t.dout = buffer [0x0D] ∧ t.dlen = 1) = true := by
  decide +kernel

/-! ### The step, the ports, the assembler -/

theorem test_step_from_reset :
    nextHas (step (State.reset.withFetchWord 16 0x0002)) (fun t => t.resp = .stateError ∧ t.fault = 2 ∧ t.host = []) =
      true := by decide +kernel
theorem test_step_reserved_word :
    nextHas (step (State.reset.withFetchWord 16 0x8101)) (fun t => t.resp = .illegalCommand ∧ t.phase = .init) = true := by
  decide +kernel
theorem test_step_holds_command :
    nextHas (step { busy 0 0 with host := [.command 0x0000] })
      (fun t => t.ready = false ∧ t.host = [.command 0x0000] ∧ t.scratch.g = 1) = true := by decide +kernel
theorem test_step_fills :
    nextHas (step { idle .absorbing with host := [.fill [1, 2], .command 2] })
      (fun t => t.block = block [1, 2] ∧ t.host = [.command 2]) = true := by decide +kernel
theorem test_port_block : (unpackBlock 0x636261)[1] = 0x62 := by decide +kernel
theorem test_port_digest : (packDigest dAbc).extractLsb' 0 32 = 0x8C5E8C50#32 := by decide +kernel
theorem test_listing_format : hexWord 0x6B08E647 = "6B08E647" := by decide +kernel
theorem test_assemble_finish :
    (Statement.finish 3 [0x61, 0x62, 0x63]).assemble =
      [.fill ([0x61, 0x62, 0x63] ++ List.replicate 61 0), .command 0x001B] := by decide +kernel

/-! ### Witnesses: for every obligation with hypotheses, a state and operands that meet them -/

theorem witness_DecodeOfEncodeIsIdentity :
    ∃ i : Instr, i.wellFormed = true ∧ i.isCommand = true ∧ i = .finish 64 := ⟨_, rfl, rfl, rfl⟩
theorem witness_EncodeOfDecodeIsIdentity : decode 0x7FF9 = .ok (.init 63 63) := by decide
theorem witness_StepWordsNameTheSteps : 80 ≤ (80 : BitVec 7).toNat ∧ 80 ≤ (127 : BitVec 7).toNat := by decide

theorem witness_IllegalCommandExactlyOnReservedWords :
    (∀ w, ∃ s : State, s.host = [.command w] ∧ s.ready = true) ∧
      (reservedWord 0x0006 ∧ reservedWord 0x0007 ∧ reservedWord 0x0008 ∧ reservedWord 0x8001 ∧ reservedWord 0x0403 ∧
        reservedWord 0x020B ∧ reservedWord 0x03FB ∧ reservedWord 0x0015) ∧
      ¬ reservedWord 0x0000 ∧ ¬ reservedWord 0x7FF9 ∧ ¬ reservedWord 0x0203 ∧ ¬ reservedWord 0x000D :=
  ⟨fun w => ⟨{ idle .init with host := [.command w] }, rfl, rfl⟩, by simp [reservedWord]⟩

theorem witness_StepRunsDecodedCommand :
    ∃ s : State, decode 0x0002 = .ok .update ∧ s.host = .command 0x0002 :: [] ∧ s.ready = true :=
  ⟨{ idle .absorbing with host := [.command 0x0002] }, by decide +kernel⟩

theorem witness_BusyStepRunsItsStepWord :
    ((busy 0 0).ready = false ∧ (busy 0 0).host = [] ∧ ((busy 0 0).scratch.r ≠ 9 ∨ (busy 0 0).scratch.g ≠ 7)) ∧
    ((busy 9 6).ready = false ∧ (busy 9 6).scratch.g ≠ 7) ∧ ((busy 8 7).ready = false ∧ (busy 8 7).scratch.r ≠ 9) ∧
    ((busy 9 7).ready = false ∧ (busy 9 7).scratch.r = 9 ∧ (busy 9 7).scratch.g = 7) ∧
    ∃ s : State, s.ready = false ∧ s.host = [.command 0x0000] :=
  ⟨by decide +kernel, by decide +kernel, by decide +kernel, by decide +kernel,
    { busy 0 7 with host := [.command 0x0000] }, rfl, rfl⟩

theorem witness_WaitingAndFillingChangeNothing :
    ((idle .init).ready = true ∧ (idle .init).host = []) ∧ ∃ s : State, s.host = [.fill [1, 2, 3]] :=
  ⟨⟨rfl, rfl⟩, { idle .init with host := [.fill [1, 2, 3]] }, rfl⟩

theorem witness_InitBuildsSessionOrRaisesConfigError :
    ((1 : BitVec 6) ≠ 0 ∧ (1 : BitVec 6) ≤ 32 ∧ (32 : BitVec 6) ≤ 32) ∧ ((32 : BitVec 6) ≠ 0 ∧ (0 : BitVec 6) ≤ 32) ∧
      (32 : BitVec 6) < 33 ∧ ¬ (33 : BitVec 6) ≤ 32 := by decide

theorem witness_ParamReadsAsH0 : (0 : BitVec 6) ≤ 32 ∧ (32 : BitVec 6) ≤ 32 := by decide
theorem witness_IvIsTheSquareRootsOfPrimes :
    ((7, 19) : Fin 8 × Nat) ∈ ([(0, 2), (1, 3), (2, 5), (3, 7), (4, 11), (5, 13), (6, 17), (7, 19)] : List (Fin 8 × Nat)) := by
  decide

theorem witness_UpdateAbsorbsFullBlock :
    (idle .absorbing).phase = .absorbing ∧ (idle .init).phase ≠ .absorbing ∧ (idle .finalized).phase ≠ .absorbing := by
  decide +kernel

theorem witness_FinishAbsorbsFinalBlock :
    ((idle .absorbing).phase = .absorbing ∧ (0 : BitVec 7) ≤ 64 ∧ (64 : BitVec 7) ≤ 64) ∧
      (idle .finalized).phase ≠ .absorbing ∧ (64 : BitVec 7) < 65 ∧ (64 : BitVec 7) < 127 := by decide +kernel

theorem witness_FinishIgnoresBytesBeyondLen :
    ∃ b b' : Block, (63 : BitVec 7) ≤ 64 ∧ b ≠ b' ∧ ∀ k : Fin 64, k.val < (63 : BitVec 7).toNat → b[k] = b'[k] :=
  ⟨block [], block (List.replicate 63 0 ++ [0xAA]), by decide +kernel⟩

theorem witness_DigestSerializesHashState :
    (idle .finalized).phase = .finalized ∧ (idle .finalized).nn ≤ 32 ∧ (idle .init).phase ≠ .finalized ∧
      (idle .absorbing).phase ≠ .finalized := by decide +kernel

theorem witness_DigestReadsOnlyItsWords :
    ∃ h h' : Words8, h ≠ h' ∧ ∀ i : Fin 8, i.val < ((5 : BitVec 6).toNat + 3) / 4 → h[i] = h'[i] :=
  ⟨words8 [1, 2, 3], words8 [1, 2, 4], by decide +kernel⟩

theorem extracted_inv : extracted.Inv where
  config _ := by decide +kernel
  digest _ := by decide +kernel
  counter h := by simp [extracted, idle] at h
  busy h := by simp [extracted, idle] at h
  recorded e h := by cases e <;> simp [extracted, idle, CmdError.resp] at h

theorem absorbing_inv : (idle .absorbing).Inv where
  config _ := by decide +kernel
  digest h := by simp [idle] at h
  counter _ _ := by decide +kernel
  busy h := by simp [idle] at h
  recorded e h := by cases e <;> simp [idle, CmdError.resp] at h

theorem busy_inv : (busy 9 7).Inv where
  config _ := by decide +kernel
  digest h := by simp [busy, idle] at h
  counter _ h := by simp [busy] at h
  busy _ := by decide +kernel
  recorded e h := by cases e <;> simp [busy, idle, CmdError.resp] at h

theorem witness_ValidDigestIsImmutable :
    extracted.Inv ∧ extracted.phase = .finalized ∧ extracted.dvalid = true ∧ configLegal 0 0 = false ∧
      nextHas (exec .digest extracted) (fun _ => true) = true ∧ nextHas (exec .update extracted) (fun _ => true) = true :=
  ⟨extracted_inv, rfl, rfl, by decide +kernel, by decide +kernel, by decide +kernel⟩

theorem witness_ErrorChangesOnlyRespAndFault :
    ∃ t, exec .update (idle .finalized) = .next t ∧ t.resp ≠ .ok := ⟨_, rfl, by decide +kernel⟩
theorem witness_TransitionTable : ∀ i ∈ [Instr.nop, .init 0 0, .update, .finish 65, .digest, .trace true], i.isCommand = true := by
  decide
theorem witness_CommandsWriteOnlyTheirState :
    ∃ t, Instr.isCommand (.trace true) = true ∧ exec (.trace true) (idle .init) = .next t ∧
      Instr.isCommand .digest = true ∧ Instr.isCommand (.init 1 0) = true := ⟨_, rfl, rfl, rfl, rfl⟩
theorem witness_ResetFromAnyState :
    ∃ t, Instr.nop ≠ .reset ∧ Instr.nop ≠ .trace false ∧ exec .nop inAbc = .next t ∧ inAbc.traceEn = true :=
  ⟨_, by decide, by decide, rfl, rfl⟩
theorem witness_GstepMixesItsQuadruple : QUAD[(7 : Fin 8)] = (3, 4, 9, 14) ∧ QUAD[(0 : Fin 8)] = (0, 4, 8, 12) := by
  decide +kernel
theorem witness_StepsOfAGroupCommute :
    ([3, 1, 0, 2] : List (Fin 8)).Perm [0, 1, 2, 3] ∧ ([7, 6, 5, 4] : List (Fin 8)).Perm [4, 5, 6, 7] := by decide
theorem witness_CounterCarriesAndWraps : 64 < 2 ^ 64 ∧ 2 ^ 64 - 1 < 2 ^ 64 := by decide

theorem witness_CompressionEmitsOneHundredEvents :
    ∃ s : State, s.phase = .absorbing ∧ s.traceEn = true ∧ ∃ len : BitVec 7, len ≤ 64 ∧ Instr.finish 64 = .finish len :=
  ⟨inAbc, rfl, rfl, 64, by decide, rfl⟩
theorem witness_RoundSnapshotsChain :
    ∃ s : State, s.phase = .absorbing ∧ s.traceEn = true ∧
      ∃ len : BitVec 7, len ≤ 64 ∧ Instr.finish 0 = .finish len ∧ 0 = len.toNat := ⟨inAbc, rfl, rfl, 0, by decide, rfl, rfl⟩
theorem witness_TracingChangesNothing : ∃ t, exec (.finish 3) inAbc = .next t := by
  refine ⟨absorb 3 true inAbc, ?_⟩
  show execFinish 3 inAbc = _
  rw [execFinish, if_neg (by decide +kernel), if_pos (by rfl)]
  rfl

theorem witness_FaultBitsStayUntilReset :
    (∃ t, step { idle .init with host := [.command 0x0002] } = .next t) ∧
      ∃ t, step { idle .init with host := [.reset], fault := 7 } = .next t := ⟨⟨_, rfl⟩, ⟨_, rfl⟩⟩
theorem witness_InvariantKeptByEveryStep :
    (busy 9 7).Inv ∧ (idle .absorbing).Inv ∧ extracted.Inv ∧ (∃ t, step (busy 9 7) = .next t) ∧
      (∃ t, step extracted = .next t) := ⟨busy_inv, absorbing_inv, extracted_inv, ⟨_, rfl⟩, ⟨_, rfl⟩⟩
theorem witness_ScratchIsNotReadAcrossCommands :
    ∃ t, Instr.isCommand .digest = true ∧ exec .digest extracted = .next t := ⟨_, rfl, rfl⟩
theorem witness_UnwrittenRegistersAreNotRead :
    ∃ t, Instr.isCommand (.init 32 0) = true ∧ (idle .init).phase = .init ∧ exec (.init 32 0) (idle .init) = .next t ∧
      t.phase = .absorbing := ⟨_, rfl, rfl, rfl, rfl⟩
theorem witness_AtomicCommandIsEightyStepWords :
    (idle .absorbing).host = [] ∧ (idle .absorbing).phase = .absorbing ∧ (0 : BitVec 7) ≤ 64 ∧ (64 : BitVec 7) ≤ 64 := by
  decide +kernel
theorem witness_HashIsItsCommandSequence : (idle .finalized).ready = true := rfl
theorem witness_HashComputesTheDigestOfTheMessage :
    ((1 : BitVec 6) ≠ 0 ∧ (1 : BitVec 6) ≤ 32 ∧ (0 : BitVec 6) ≤ 32) ∧
      (32 : BitVec 6) ≠ 0 ∧ (32 : BitVec 6) ≤ 32 ∧ (32 : BitVec 6) ≤ 32 := by decide

/-- An idle unit at the signal level, and the ports while the host presents a word, while it does not, and under reset. -/
def sigIdle : SigState := { unit := idle .absorbing, running := none, respValid := false, tracing := [] }
def present (w : BitVec 16) : PortsIn := { rstN := true, cmdValid := true, cmd := w, block := 0 }
def quiet : PortsIn := { rstN := true, cmdValid := false, cmd := 0, block := 0 }
def resetPorts : PortsIn := { rstN := false, cmdValid := false, cmd := 0, block := 0 }

theorem witness_AcceptedCommandIsAnsweredAfterItsLatency :
    let lat := Config.lat (opField (present 0x0002).cmd) sigIdle.unit.traceEn
    sigIdle.running = none ∧ (present 0x0002).rstN = true ∧ (present 0x0002).cmdValid = true ∧
      (∀ q ∈ List.replicate lat quiet, q.rstN = true) ∧ (List.replicate lat quiet).length ≤ lat ∧
      ([] : List PortsIn).length ≤ lat :=
  ⟨rfl, rfl, rfl, fun q hq => by rw [List.eq_of_mem_replicate hq]; rfl, by simp, by simp⟩
/-- A traced UPDATE with `left` cycles to its response, after `shown` of its events. -/
def sigTraced (left shown : Nat) : SigState :=
  { unit := { idle .absorbing with traceEn := true },
    running := some { word := 0x0002, sampled := block [], left, shown }, respValid := false, tracing := [] }

/-- R102: the last event, `RoundPost(0, 9)`, shows no later than the response; R145: 100 events in the log. -/
theorem test_last_event_with_response :
    (match cycle quiet (sigTraced 1 99) with
      | .next y => y.ports.traceValid && y.tracing.map TraceEvent.key = [(2, 0, 9, none)] && y.ports.respValid &&
          y.unit.trace.length = 100
      | .fault _ => false
      | .refused _ => false) = true := by decide +kernel

/-- R102: the first event, `RoundPre(0, 0)`, must show when as many cycles are left as there are events after it. -/
theorem test_first_event_when_due :
    (match cycle quiet (sigTraced 100 0) with
      | .next y => y.ports.traceValid && y.tracing.map TraceEvent.key = [(0, 0, 0, none)] && !y.ports.ready
      | .fault _ => false
      | .refused _ => false) = true := by decide +kernel

theorem witness_ResetDropsTheCommandUnderWay :
    resetPorts.rstN = false ∧ ∃ (x : SigState) (c : Running) (t : State), x.running = some c ∧
      execWord c.word { x.unit with block := c.sampled } = .next t :=
  ⟨rfl, { sigIdle with running := some { word := 0x0004, sampled := block [], left := 3, shown := 0 } }, _, _, rfl, rfl⟩

theorem sigTraced_inv : (sigTraced 100 0).Inv where
  unit := by
    refine ⟨rfl, ⟨fun _ => by decide +kernel, fun h => by simp [sigTraced, idle] at h, fun _ _ => by decide +kernel,
      fun h => by simp [sigTraced, idle] at h, fun e h => by cases e <;> simp [sigTraced, idle, CmdError.resp] at h⟩⟩
  pulse h := by simp [sigTraced] at h
  events c h := by
    obtain rfl := Option.some.inj h
    exact ⟨Nat.zero_le _, fun _ => by decide +kernel⟩
  single _ := by simp [sigTraced]
  quiet h := by simp [sigTraced] at h

theorem witness_TracePortsShowEveryEventInOrder :
    let lat := Config.lat (opField (present 0x0002).cmd) (sigTraced 0 0).unit.traceEn
    ((present 0x0002).rstN = true ∧ (present 0x0002).cmdValid = true ∧ (List.replicate lat quiet).length ≤ lat ∧
        (∀ q ∈ List.replicate lat quiet, q.rstN = true) ∧ ([] : List PortsIn).length ≤ lat) ∧
      sigIdle.running = none ∧ sigIdle.unit.traceEn = false ∧ ∃ y, cycle quiet sigIdle = .next y :=
  ⟨⟨rfl, rfl, by simp, fun q hq => by rw [List.eq_of_mem_replicate hq]; rfl, by simp⟩, rfl, rfl, _, rfl⟩
theorem witness_TracePortsArePacked :
    sigIdle.tracing = [] ∧ ∃ (x : SigState) (e : TraceEvent), x.tracing = [e] :=
  ⟨rfl, { sigIdle with tracing := [.roundPre 0 0 vAbc vAbc] }, _, rfl⟩
theorem witness_SignalInvariantKeptByEveryCycle :
    (sigTraced 100 0).Inv ∧ ∃ y, cycle resetPorts (sigTraced 100 0) = .next y := ⟨sigTraced_inv, _, rfl⟩

end Sys2Proof.Tests
end

section
/-! SUPPORT. What an instruction can do, said once: a command raises its error or has its result (R179, R205), any other
instruction is RESET, a micro-operation with its frame, or HASH, a run of commands and writes of BLK; and what a step can
do. -/

namespace Sys2Proof.Machine

/-! ### Commands -/

/-- The error that a command raises in phase `p` (R202, R203, R204), `none` where it succeeds. -/
def commandError (p : Phase) : Instr → Option CmdError
  | .init nn kk => if configLegal nn kk then none else some .config
  | .update => if p = .absorbing then none else some .state
  | .finish len => if 64#7 < len then some .illegal else if p = .absorbing then none else some .state
  | .digest => if p = .finalized then none else some .state
  | .reservedOp6 _ | .reservedOp7 _ => some .illegal
  | .nop | .trace _ | .gstep _ _ | .add32 _ _ _ | .xor32 _ _ | .rotr _ _ | .g _ _ _ _ _ _ | .round _ | .f _ | .reset
  | .hash _ _ _ => none

/-- The next state of a command that raises no error (R158, R166, R167, R169, R176, R192); of any other instruction, the
state as it is. -/
def commandResult : Instr → State → State
  | .nop, s => respondOk s
  | .init nn kk, s => respondOk (newSession nn kk s)
  | .update, s => absorb 64 false s
  | .finish len, s => absorb len.toNat true s
  | .digest, s => respondOk { s with dout := digestBytes s.h s.nn, dlen := s.nn, dvalid := true }
  | .trace en, s => respondOk { s with traceEn := en }
  | .reservedOp6 _, s | .reservedOp7 _, s | .gstep _ _, s | .add32 _ _ _, s | .xor32 _ _, s | .rotr _ _, s
  | .g _ _ _ _ _ _, s | .round _, s | .f _, s | .reset, s | .hash _ _ _, s => s

/-- The next state of a command. -/
def commandNext (i : Instr) (s : State) : State :=
  match commandError s.phase i with
  | some e => raiseError e s
  | none => commandResult i s

theorem commandNext_of_error {i : Instr} {s : State} {e : CmdError} (h : commandError s.phase i = some e) :
    commandNext i s = raiseError e s := by
  simp [commandNext, h]

theorem commandNext_of_success {i : Instr} {s : State} (h : commandError s.phase i = none) :
    commandNext i s = commandResult i s := by
  simp [commandNext, h]

/-- Every command has the next state `commandNext`. -/
theorem exec_command {i : Instr} (hi : i.isCommand = true) (s : State) : exec i s = .next (commandNext i s) := by
  cases i with
  | nop => rfl
  | init nn kk =>
    show execInit nn kk s = _
    cases h : configLegal nn kk <;> simp [execInit, commandNext, commandError, commandResult, h]
  | update =>
    show execUpdate s = _
    by_cases h : s.phase = .absorbing <;> simp [execUpdate, commandNext, commandError, commandResult, h]
  | finish len =>
    show execFinish len s = _
    by_cases hl : 64#7 < len
    · simp [execFinish, commandNext, commandError, hl]
    · by_cases h : s.phase = .absorbing <;> simp [execFinish, commandNext, commandError, commandResult, hl, h]
  | digest =>
    show execDigest s = _
    by_cases h : s.phase = .finalized <;> simp [execDigest, commandNext, commandError, commandResult, h]
  | trace en => rfl
  | reservedOp6 hi => rfl
  | reservedOp7 hi => rfl
  | gstep | add32 | xor32 | rotr | g | round | f | reset | hash => simp [Instr.isCommand] at hi

theorem exec_command_eq_next {i : Instr} (hi : i.isCommand = true) {s t : State} :
    exec i s = .next t ↔ t = commandNext i s := by
  rw [exec_command hi, Host.Outcome.next.injEq, eq_comm]

/-- A word that decodes is the word of a command (R82). -/
theorem decode_isCommand {w : BitVec 16} {i : Instr} (h : decode w = .ok i) : i.isCommand = true := by
  unfold decode at h
  dsimp only at h
  repeat' split at h
  all_goals cases h <;> rfl

/-- A command word runs a command or raises IllegalCommand (R204, R207). -/
theorem execWord_cases {w : BitVec 16} {s t : State} (h : execWord w s = .next t) :
    (∃ i, decode w = .ok i ∧ i.isCommand = true ∧ t = commandNext i s) ∨
      ((∃ e, decode w = .error e) ∧ t = raiseError .illegal s) := by
  unfold execWord at h
  split at h
  case h_1 i hi =>
    exact .inl ⟨i, hi, decode_isCommand hi, (exec_command_eq_next (decode_isCommand hi)).mp h⟩
  case h_2 e he => exact .inr ⟨⟨e, he⟩, by cases h; rfl⟩

/-! ### When a command succeeds -/

@[simp] theorem commandError_init_eq_none {p : Phase} {nn kk : BitVec 6} :
    commandError p (.init nn kk) = none ↔ configLegal nn kk = true := by
  simp [commandError]

@[simp] theorem commandError_update_eq_none {p : Phase} : commandError p .update = none ↔ p = .absorbing := by
  simp [commandError]

@[simp] theorem commandError_finish_eq_none {p : Phase} {len : BitVec 7} :
    commandError p (.finish len) = none ↔ ¬ 64#7 < len ∧ p = .absorbing := by
  by_cases h : 64#7 < len <;> simp [commandError, h]

@[simp] theorem commandError_digest_eq_none {p : Phase} : commandError p .digest = none ↔ p = .finalized := by
  simp [commandError]

/-! ### HASH -/

/-- One link of HASH (R181): the host writes BLK, or a command other than TRACE runs. -/
inductive HashLink : State → State → Prop
  | fill (bytes : List Byte) (s : State) : HashLink s (fillBlk bytes s)
  | command {i : Instr} (hi : i.isCommand = true) (ht : ∀ en, i ≠ .trace en) (s : State) : HashLink s (commandNext i s)

/-- A run of links of HASH. -/
abbrev HashRun : State → State → Prop := Relation.ReflTransGen HashLink

theorem HashRun.fill (bytes : List Byte) (s : State) : HashRun s (fillBlk bytes s) := .single (.fill bytes s)

theorem HashRun.command {i : Instr} {s t : State} (h : exec i s = .next t) (hi : i.isCommand = true := by rfl)
    (ht : ∀ en, i ≠ .trace en := by simp) : HashRun s t := by
  obtain rfl := (exec_command_eq_next hi).mp h
  exact .single (.command hi ht s)

theorem absorbBlocks_run {msg : List Byte} {js : List Nat} {s t : State} (h : absorbBlocks msg js s = .next t) :
    HashRun s t := by
  induction js generalizing s with
  | nil => cases h; exact .refl
  | cons j js ih =>
    obtain ⟨u, hu, ht⟩ := andThen_eq_next.mp h
    exact (HashRun.fill _ s).trans ((HashRun.command (i := .update) hu).trans (ih ht))

/-- HASH is a run of commands and writes of BLK (R181). -/
theorem execHash_run {nn kk : BitVec 6} {msg : List Byte} {s t : State} (h : execHash nn kk msg s = .next t) :
    HashRun s t := by
  obtain ⟨s₁, hinit, h⟩ := andThen_eq_next.mp h
  obtain ⟨s₂, hblocks, h⟩ := andThen_eq_next.mp h
  obtain ⟨s₃, hfinish, hdigest⟩ := andThen_eq_next.mp h
  calc HashRun s s₁ := .command (i := .init nn kk) hinit
    HashRun _ s₂ := absorbBlocks_run hblocks
    HashRun _ (fillBlk _ s₂) := .fill _ s₂
    HashRun _ s₃ := .command (i := .finish _) hfinish
    HashRun _ t := .command (i := .digest) hdigest

/-! ### Every instruction -/

/-- What a micro-operation run on its own may touch: `h`, the scratch registers and the trace log (R47, assumption 7). -/
def SameOutsideMicro (s t : State) : Prop := t = { s with h := t.h, scratch := t.scratch, trace := t.trace }

theorem SameOutsideRounds.micro {s t : State} (h : SameOutsideRounds s t) : SameOutsideMicro s t := by
  unfold SameOutsideRounds at h
  unfold SameOutsideMicro
  rw [h]

theorem fOp_outside (final : Bool) (s : State) : SameOutsideMicro s (fOp final s) := by
  have h := runRounds_outside (enterF final s)
  unfold SameOutsideRounds at h
  unfold SameOutsideMicro fOp
  rw [h]
  rfl

/-- Every instruction is a command, RESET, a run of HASH, or stays within the frame of the micro-operations. -/
theorem exec_cases {i : Instr} {s t : State} (h : exec i s = .next t) :
    (i.isCommand = true ∧ t = commandNext i s) ∨ i = .reset ∨ HashRun s t ∨ SameOutsideMicro s t := by
  cases hi : i.isCommand with
  | true => exact .inl ⟨rfl, (exec_command_eq_next hi).mp h⟩
  | false =>
    cases i with
    | reset => exact .inr (.inl rfl)
    | hash nn kk msg => exact .inr (.inr (.inl (execHash_run h)))
    | add32 x y z => cases z <;> cases h <;> exact .inr (.inr (.inr rfl))
    | gstep | xor32 | rotr | g => cases h; exact .inr (.inr (.inr rfl))
    | round r => cases h; exact .inr (.inr (.inr (roundOp_outside r s).micro))
    | f final => cases h; exact .inr (.inr (.inr (fOp_outside final s)))
    | nop | init | update | finish | digest | trace | reservedOp6 | reservedOp7 => simp [Instr.isCommand] at hi

/-! ### The step -/

/-- What a step can do. -/
theorem step_cases {s t : State} (h : step s = .next t) :
    (∃ rest, s.host = .reset :: rest ∧ exec .reset { s with host := rest } = .next t) ∨
    (∃ bytes rest, s.host = .fill bytes :: rest ∧ t = fillBlk bytes { s with host := rest }) ∨
    (∃ w rest, s.host = .command w :: rest ∧ s.ready = true ∧ execWord w { s with host := rest } = .next t) ∨
    (s.host = [] ∧ s.ready = true ∧ t = s) ∨
    ((s.host = [] ∨ ∃ w rest, s.host = .command w :: rest) ∧ s.ready = false ∧ busyStep s = .next t) := by
  unfold step at h
  split at h
  case h_1 rest hh => exact .inl ⟨rest, hh, h⟩
  case h_2 bytes rest hh => cases h; exact .inr (.inl ⟨bytes, rest, hh, rfl⟩)
  case h_3 w rest hh =>
    cases hr : s.ready with
    | true => exact .inr (.inr (.inl ⟨w, rest, hh, rfl, by simpa [hr] using h⟩))
    | false => exact .inr (.inr (.inr (.inr ⟨.inr ⟨w, rest, hh⟩, rfl, by simpa [hr] using h⟩)))
  case h_4 hh =>
    cases hr : s.ready with
    | true => exact .inr (.inr (.inr (.inl ⟨hh, rfl, by simpa [hr, eq_comm] using h⟩)))
    | false => exact .inr (.inr (.inr (.inr ⟨.inl hh, rfl, by simpa [hr] using h⟩)))

theorem advanceStepWord_outside (s : State) : SameOutsideRounds s (advanceStepWord s) := rfl

theorem beforeStepWord_outside (s : State) :
    SameOutsideRounds s (beforeStepWord s) ∧ (beforeStepWord s).scratch = s.scratch := by
  unfold beforeStepWord
  split
  · exact ⟨emit_outside _ s, rfl⟩
  · exact ⟨.refl s, rfl⟩

/-- A step of a busy unit stays within the frame of the rounds and keeps the flag `f`, but that the one of the last step
word then ends the command (R126). -/
theorem busyStep_cases {s t : State} (h : busyStep s = .next t) :
    ∃ u, SameOutsideRounds s u ∧ u.scratch.f = s.scratch.f ∧ (t = u ∨ t = endCompression u) := by
  obtain ⟨x, hx, ht⟩ := andThen_eq_next.mp h
  obtain ⟨hb, hbs⟩ := beforeStepWord_outside s
  have hstep : SameOutsideRounds s x ∧ x.scratch.f = s.scratch.f := by
    cases hx
    exact ⟨hb.trans (gstepOp_outside _ _ _), by rw [gstepOp_scratch_f, hbs]⟩
  have hpost : SameOutsideRounds s (if x.scratch.g = 7 then emitRoundPost x.scratch.r x else x) ∧
      (if x.scratch.g = 7 then emitRoundPost x.scratch.r x else x).scratch.f = s.scratch.f := by
    split
    · exact ⟨hstep.1.trans (emit_outside _ x), hstep.2⟩
    · exact hstep
  cases ht
  unfold afterStepWord
  dsimp only
  split
  · exact ⟨_, hpost.1, hpost.2, .inr rfl⟩
  · exact ⟨_, hpost.1.trans (advanceStepWord_outside _), hpost.2, .inl rfl⟩

end Sys2Proof.Machine
end

section
/-! SUPPORT. The register PARAM as bytes and as a number (R24, R153). -/

namespace Sys2Proof.Machine

theorem toNat_append_eq_add {n m : Nat} (x : BitVec n) (y : BitVec m) :
    (x ++ y).toNat = x.toNat * 2 ^ m + y.toNat := by
  rw [BitVec.toNat_append, ← Nat.shiftLeft_add_eq_or_of_lt y.isLt, Nat.shiftLeft_eq]

theorem zeroExtend_eq_append (x : BitVec 6) : x.zeroExtend 32 = 0#8 ++ 0#8 ++ 0#8 ++ (0#2 ++ x) := by
  ext i hi
  simp
  grind

theorem zeroExtend_shiftLeft_eq_append (x : BitVec 6) :
    x.zeroExtend 32 <<< 8 = 0#8 ++ 0#8 ++ (0#2 ++ x) ++ 0#8 := by
  ext i hi
  simp
  grind

/-- The exclusive-or of R153 puts each field in a byte of its own. -/
theorem h0_eq_append (nn kk : BitVec 6) : h0 nn kk = 1#8 ++ 1#8 ++ (0#2 ++ kk) ++ (0#2 ++ nn) :=
  calc h0 nn kk
      = (1#8 ++ 1#8 ++ 0#8 ++ 0#8) ^^^ (0#8 ++ 0#8 ++ (0#2 ++ kk) ++ 0#8) ^^^ (0#8 ++ 0#8 ++ 0#8 ++ (0#2 ++ nn)) := by
        rw [← zeroExtend_shiftLeft_eq_append, ← zeroExtend_eq_append]
        rfl
    _ = 1#8 ++ 1#8 ++ (0#2 ++ kk) ++ (0#2 ++ nn) := by
        simp only [BitVec.xor_append, BitVec.zero_xor, BitVec.xor_zero]

theorem param_eq_h0 (s : State) : s.param = h0 s.nn s.kk := (h0_eq_append s.nn s.kk).symm

theorem h0_toNat (nn kk : BitVec 6) : (h0 nn kk).toNat = 2 ^ 24 + 2 ^ 16 + kk.toNat * 2 ^ 8 + nn.toNat := by
  simp only [h0_eq_append, toNat_append_eq_add, BitVec.toNat_ofNat]
  omega

theorem param_byte_toNat (s : State) (k : Nat) :
    (s.param.extractLsb' k 8).toNat = (2 ^ 24 + 2 ^ 16 + s.kk.toNat * 2 ^ 8 + s.nn.toNat) / 2 ^ k % 2 ^ 8 := by
  rw [BitVec.extractLsb'_toNat, Nat.shiftRight_eq_div_pow, param_eq_h0, h0_toNat]

/-- `fanout` is hardwired to 1 (R154). -/
theorem param_fanout (s : State) : s.param.extractLsb' 16 8 = 1 := by
  have h := param_byte_toNat s 16
  bv_omega

/-- `depth` is hardwired to 1 (R154). -/
theorem param_depth (s : State) : s.param.extractLsb' 24 8 = 1 := by
  have h := param_byte_toNat s 24
  bv_omega

/-- Settles O13: both are the four bytes depth, fanout, `kk` and `nn`. -/
theorem paramReadsAsH0 : Obligations.ParamReadsAsH0 :=
  ⟨param_eq_h0, fun nn kk _ _ => h0_toNat nn kk⟩

end Sys2Proof.Machine
end

section
/-! SUPPORT. RESET and what only it clears (R42, R210, R230). -/

namespace Sys2Proof.Machine

/-- Settles O25: the values of R42; `param` by its fields. -/
theorem resetStateAsSpecified : Obligations.ResetStateAsSpecified :=
  ⟨rfl, rfl, rfl, rfl, rfl, rfl, param_fanout _, param_depth _⟩

/-- Every FAULT bit of the first state is set in the second (R210). -/
def FaultKept (s t : State) : Prop := s.fault &&& t.fault = s.fault

theorem FaultKept.of_eq {s t : State} (h : t.fault = s.fault) : FaultKept s t := by
  rw [FaultKept, h, BitVec.and_self]

theorem FaultKept.trans {s t u : State} (h : FaultKept s t) (h' : FaultKept t u) : FaultKept s u := by
  unfold FaultKept at *
  rw [← h, BitVec.and_assoc, h']

theorem faultKept_raiseError (e : CmdError) (s : State) : FaultKept s (raiseError e s) := by
  unfold FaultKept
  ext i hi
  simp [setFault]
  grind

theorem commandResult_fault (i : Instr) (s : State) : (commandResult i s).fault = s.fault := by
  cases i <;> simp [commandResult]

theorem faultKept_commandNext (i : Instr) (s : State) : FaultKept s (commandNext i s) := by
  cases h : commandError s.phase i with
  | some e => rw [commandNext_of_error h]; exact faultKept_raiseError e s
  | none => rw [commandNext_of_success h]; exact .of_eq (commandResult_fault i s)

theorem HashRun.faultKept {s t : State} (h : HashRun s t) : FaultKept s t := by
  induction h with
  | refl => exact .of_eq rfl
  | tail _ hlink ih =>
    cases hlink with
    | fill bytes => exact ih.trans (.of_eq (fillBlk_fault _ bytes))
    | command => exact ih.trans (faultKept_commandNext _ _)

/-- Only RESET clears a FAULT bit (R210, R230). -/
theorem exec_faultKept {i : Instr} {s t : State} (hi : i ≠ .reset) (h : exec i s = .next t) : FaultKept s t := by
  obtain ⟨-, rfl⟩ | hreset | hrun | hmicro := exec_cases h
  · exact faultKept_commandNext i s
  · exact absurd hreset hi
  · exact hrun.faultKept
  · exact .of_eq (by rw [hmicro])

theorem commandNext_traceEn {i : Instr} (hi : ∀ en, i ≠ .trace en) (s : State) :
    (commandNext i s).traceEn = s.traceEn := by
  cases h : commandError s.phase i with
  | some e => rw [commandNext_of_error h]; rfl
  | none =>
    rw [commandNext_of_success h]
    cases i with
    | trace en => exact absurd rfl (hi en)
    | update | finish => exact absorb_traceEn _ _ s
    | _ => rfl

theorem HashRun.traceEn {s t : State} (h : HashRun s t) : t.traceEn = s.traceEn := by
  induction h with
  | refl => rfl
  | tail _ hlink ih =>
    cases hlink with
    | fill bytes => exact (fillBlk_traceEn _ bytes).trans ih
    | command _ ht => exact (commandNext_traceEn ht _).trans ih

/-- Only RESET and TRACE write TRACE_EN (R230). -/
theorem exec_traceEn {i : Instr} {s t : State} (hr : i ≠ .reset) (ht : ∀ en, i ≠ .trace en)
    (h : exec i s = .next t) : t.traceEn = s.traceEn := by
  obtain ⟨-, rfl⟩ | hreset | hrun | hmicro := exec_cases h
  · exact commandNext_traceEn ht s
  · exact absurd hreset hr
  · exact hrun.traceEn
  · rw [hmicro]

/-- Settles O24: RESET writes the values of R42, and by `exec_faultKept` and `exec_traceEn` nothing else clears
FAULT or, but for TRACE 0, TRACE_EN. -/
theorem resetFromAnyState : Obligations.ResetFromAnyState := by
  refine ⟨fun s => ⟨_, rfl, rfl, rfl, rfl, rfl, rfl, rfl, param_fanout _, param_depth _, rfl, rfl, rfl⟩, ?_⟩
  intro i s t hr h
  refine ⟨exec_faultKept hr h, fun hoff hen => ?_⟩
  by_cases ht : i = .trace true
  · subst ht
    cases h
    rfl
  · rw [exec_traceEn hr _ h, hen]
    rintro (_ | _) rfl
    · exact hoff rfl
    · exact ht rfl

end Sys2Proof.Machine
end

section
/-! SUPPORT. What a command writes (R47) and what it does not read (R43, R44). -/

namespace Sys2Proof.Machine

/-- Settles O23: an error writes RESP and FAULT only (R205); a command that succeeds writes what `commandResult` says. -/
theorem commandsWriteOnlyTheirState : Obligations.CommandsWriteOnlyTheirState := by
  intro i s t hi h
  obtain rfl := (exec_command_eq_next hi).mp h
  cases he : commandError s.phase i with
  | some e => simp [commandNext_of_error he]
  | none =>
    rw [commandNext_of_success he]
    cases i <;> simp [commandResult]

/-- A compression loads its scratch registers before it uses them (R44, R178). -/
theorem absorb_scratch_irrelevant (keep : Nat) (final : Bool) (s : State) (sc : Scratch) :
    absorb keep final { s with scratch := sc } = absorb keep final s := by
  simp only [absorb_eq]

/-- Two states that differ in the scratch registers only. -/
def SameOutsideScratch (s t : State) : Prop := t = { s with scratch := t.scratch }

theorem SameOutsideScratch.refl (s : State) : SameOutsideScratch s s := rfl

theorem commandResult_sameOutsideScratch (i : Instr) (s : State) (sc : Scratch) :
    SameOutsideScratch (commandResult i s) (commandResult i { s with scratch := sc }) := by
  cases i with
  | update | finish =>
    simp only [commandResult, absorb_scratch_irrelevant]
    exact .refl _
  | _ => rfl

/-- The phase alone decides whether a command raises an error, and no result depends on scratch (R44). -/
theorem commandNext_sameOutsideScratch (i : Instr) (s : State) (sc : Scratch) :
    SameOutsideScratch (commandNext i s) (commandNext i { s with scratch := sc }) := by
  cases he : commandError s.phase i with
  | some e =>
    rw [commandNext_of_error he, commandNext_of_error (s := { s with scratch := sc }) he]
    rfl
  | none =>
    rw [commandNext_of_success he, commandNext_of_success (s := { s with scratch := sc }) he]
    exact commandResult_sameOutsideScratch i s sc

/-- Settles O48, by `commandNext_sameOutsideScratch`. -/
theorem scratchIsNotReadAcrossCommands : Obligations.ScratchIsNotReadAcrossCommands := by
  intro i s t sc hi h
  obtain rfl := (exec_command_eq_next hi).mp h
  exact ⟨_, exec_command hi _, commandNext_sameOutsideScratch i s sc⟩

/-- The state with other values in the registers that hold no value after reset (R42). -/
def State.withUnwritten (u : UnwrittenRegs) (s : State) : State :=
  { s with h := u.h, t := u.t, nn := u.nn, kk := u.kk, blk := u.blk, dout := u.dout, dlen := u.dlen }

/-- Two states that agree outside the registers of R42 that hold no value, and in phase ABSORBING in all of them that
belong to the session. -/
def SameButUnwritten (t t' : State) : Prop :=
  t' = { t with h := t'.h, t := t'.t, nn := t'.nn, kk := t'.kk, blk := t'.blk, dout := t'.dout, dlen := t'.dlen } ∧
    (t.phase = .absorbing → t'.h = t.h ∧ t'.t = t.t ∧ t'.nn = t.nn ∧ t'.kk = t.kk ∧ t'.blk = t.blk)

/-- In phase INIT only NOP, INIT and TRACE succeed (R179), and of these only INIT opens a session. -/
theorem commandResult_sameButUnwritten {i : Instr} {s : State} (hi : i.isCommand = true) (hp : s.phase = .init)
    (he : commandError s.phase i = none) (u : UnwrittenRegs) :
    SameButUnwritten (commandResult i s) (commandResult i (s.withUnwritten u)) := by
  have hinit : s.phase ≠ .absorbing := by simp [hp]
  cases i with
  | nop | trace => exact ⟨rfl, fun h => absurd h hinit⟩
  | init nn kk => exact ⟨rfl, fun _ => ⟨rfl, rfl, rfl, rfl, rfl⟩⟩
  | update => exact absurd (commandError_update_eq_none.mp he) hinit
  | finish len => exact absurd (commandError_finish_eq_none.mp he).2 hinit
  | digest => simp [hp] at he
  | reservedOp6 | reservedOp7 => simp [commandError] at he
  | _ => simp [Instr.isCommand] at hi

theorem commandNext_sameButUnwritten {i : Instr} {s : State} (hi : i.isCommand = true) (hp : s.phase = .init)
    (u : UnwrittenRegs) : SameButUnwritten (commandNext i s) (commandNext i (s.withUnwritten u)) := by
  cases he : commandError s.phase i with
  | some e =>
    rw [commandNext_of_error he, commandNext_of_error (s := s.withUnwritten u) he]
    exact ⟨rfl, fun h => by simp [hp] at h⟩
  | none =>
    rw [commandNext_of_success he, commandNext_of_success (s := s.withUnwritten u) he]
    exact commandResult_sameButUnwritten hi hp he u

/-- Settles O49, by `commandNext_sameButUnwritten`. -/
theorem unwrittenRegistersAreNotRead : Obligations.UnwrittenRegistersAreNotRead := by
  intro i s t u hi hp h
  obtain rfl := (exec_command_eq_next hi).mp h
  exact ⟨_, exec_command hi _, commandNext_sameButUnwritten hi hp u⟩

end Sys2Proof.Machine
end

section
/-! SUPPORT. The invariant of R45 holds at reset and every step keeps it. -/

namespace Sys2Proof.Machine

@[simp] theorem CmdError.resp_ne_ok (e : CmdError) : e.resp ≠ .ok := by cases e <;> simp [CmdError.resp]

theorem CmdError.resp_injective : Function.Injective CmdError.resp := by
  intro e e' h
  cases e <;> cases e' <;> simp [CmdError.resp] at h ⊢

/-- The FAULT bit of an error is set once it is raised (R205). -/
theorem setFault_and_faultMask (e : CmdError) (f : BitVec 3) : setFault e f &&& e.faultMask = e.faultMask := by
  ext i hi
  simp [setFault]
  grind

/-- An OK response records nothing. -/
theorem recorded_of_ok {s : State} (h : s.resp = .ok) (e : CmdError) (he : s.resp = e.resp) :
    s.fault &&& e.faultMask = e.faultMask :=
  absurd (he.symm.trans h) e.resp_ne_ok

namespace State.Inv

/-- The invariant reads none of the trace log, TRACE_EN, BLK, the host's list and the draw counter, and of the scratch
registers only the flag `f`. -/
theorem frame {s u : State} (h : s.Inv) (hf : u.scratch.f = s.scratch.f)
    (hu : u = { s with scratch := u.scratch, trace := u.trace, traceEn := u.traceEn, block := u.block, host := u.host,
                       free := u.free }) : u.Inv := by
  rw [hu]
  exact ⟨h.config, h.digest, h.counter, fun hr => (h.busy hr).imp_right fun ht hfu => ht (hf ▸ hfu), h.recorded⟩

theorem rounds {s u : State} (h : s.Inv) (hu : SameOutsideRounds s u) (hf : u.scratch.f = s.scratch.f) : u.Inv :=
  h.frame hf (by unfold SameOutsideRounds at hu; rw [hu])

/-- With the values of R42 the invariant holds, whatever the other registers hold. -/
theorem of_resetValues {s : State} (hp : s.phase = .init) (hd : s.dvalid = false) (hr : s.ready = true)
    (hok : s.resp = .ok) : s.Inv where
  config h := absurd hp h
  digest h := by simp [hd] at h
  counter h := by simp [hp] at h
  busy h := by simp [hr] at h
  recorded := recorded_of_ok hok

theorem respondOk {s : State} (h : s.Inv) : (respondOk s).Inv :=
  ⟨h.config, h.digest, h.counter, h.busy, recorded_of_ok rfl⟩

/-- Raising an error keeps the invariant: it sets the bit that it answers (R205). -/
theorem raiseError {s : State} (h : s.Inv) (e : CmdError) : (raiseError e s).Inv where
  config := h.config
  digest := h.digest
  counter := h.counter
  busy := h.busy
  recorded e' he := by
    obtain rfl := CmdError.resp_injective he
    exact setFault_and_faultMask e s.fault

theorem newSession {s : State} {nn kk : BitVec 6} (h : s.Inv) (hr : s.ready = true) (hc : configLegal nn kk = true) :
    (newSession nn kk s).Inv where
  config _ := hc
  digest h := by simp at h
  counter _ _ := by simp
  busy h := by simp [hr] at h
  recorded := h.recorded

/-- No digest is valid in phase ABSORBING. -/
theorem not_dvalid {s : State} (h : s.Inv) (hp : s.phase = .absorbing) : s.dvalid = false := by
  by_contra hd
  have hfin := (h.digest (by simpa using hd)).1
  simp [hp] at hfin

/-- A whole compression keeps the invariant: UPDATE counts the 64 bytes of the block that `blk` counts, FINISH ends the
phase in which `t` is compared with `blk` (R169, R171, R177). -/
theorem absorb {s : State} {keep : Nat} {final : Bool} (h : s.Inv) (hp : s.phase = .absorbing) (hr : s.ready = true)
    (hk : final = false → keep = 64) : (absorb keep final s).Inv where
  config _ := by simpa using h.config (by simp [hp])
  digest hd := by simp [h.not_dvalid hp] at hd
  counter hphase _ := by
    cases final with
    | true => simp at hphase
    | false =>
      have ht := h.counter hp hr
      simp only [absorb_t, absorb_blk, add64, hk rfl, ht]
      bv_omega
  busy h := by simp at h
  recorded := recorded_of_ok (absorb_resp keep final s)

/-- The end of a compression keeps the invariant: `blk` catches up with the bytes counted at its start (R171, R177). -/
theorem endCompression {s : State} (h : s.Inv) (hr : s.ready = false) : (endCompression s).Inv := by
  obtain ⟨hp, ht⟩ := h.busy hr
  exact
    { config := fun _ => h.config (by simp [hp])
      digest := fun hd => by simp [h.not_dvalid hp] at hd
      counter := fun hphase _ => by
        cases hf : s.scratch.f with
        | true => simp [hf] at hphase
        | false =>
          simp only [endCompression_t, endCompression_blk, ht hf]
          bv_omega
      busy := fun h => by simp at h
      recorded := recorded_of_ok rfl }

/-- A command that succeeds on a ready unit keeps the invariant. -/
theorem commandResult {i : Instr} {s : State} (h : s.Inv) (hr : s.ready = true)
    (he : commandError s.phase i = none) : (commandResult i s).Inv := by
  cases i with
  | nop => exact h.respondOk
  | init nn kk => exact (h.newSession hr (commandError_init_eq_none.mp he)).respondOk
  | update => exact h.absorb (commandError_update_eq_none.mp he) hr fun _ => rfl
  | finish len => exact h.absorb (commandError_finish_eq_none.mp he).2 hr (by simp)
  | digest =>
    have hp := commandError_digest_eq_none.mp he
    exact ⟨h.config, fun _ => ⟨hp, hr, rfl, rfl⟩, h.counter, h.busy, recorded_of_ok rfl⟩
  | trace en => exact (h.frame (u := { s with traceEn := en }) rfl rfl).respondOk
  | _ => exact h

theorem commandNext {s : State} (h : s.Inv) (hr : s.ready = true) (i : Instr) : (commandNext i s).Inv := by
  cases he : commandError s.phase i with
  | some e => rw [commandNext_of_error he]; exact h.raiseError e
  | none => rw [commandNext_of_success he]; exact h.commandResult hr he

/-- A busy unit keeps the invariant through its step words and at its end (R126). -/
theorem busyStep {s t : State} (h : s.Inv) (hr : s.ready = false) (ht : busyStep s = .next t) : t.Inv := by
  obtain ⟨u, hu, hf, rfl | rfl⟩ := busyStep_cases ht
  · exact h.rounds hu hf
  · exact (h.rounds hu hf).endCompression (by rw [hu, hr])

/-- An accepted command word keeps the invariant. -/
theorem execWord {w : BitVec 16} {s t : State} (h : s.Inv) (hr : s.ready = true) (ht : execWord w s = .next t) :
    t.Inv := by
  obtain ⟨i, -, -, rfl⟩ | ⟨-, rfl⟩ := execWord_cases ht
  · exact h.commandNext hr i
  · exact h.raiseError .illegal

end State.Inv

theorem execReset_inv {s t : State} (h : exec .reset s = .next t) : t.Inv := by
  cases h
  exact .of_resetValues rfl rfl rfl rfl

/-- Settles O46: each of the things a step can do keeps the invariant. -/
theorem invariantKeptByEveryStep : Obligations.InvariantKeptByEveryStep := by
  intro s t h ht
  obtain ⟨rest, -, ht⟩ | ⟨bytes, rest, -, rfl⟩ | ⟨w, rest, -, hr, ht⟩ | ⟨-, -, rfl⟩ | ⟨-, hr, ht⟩ := step_cases ht
  · exact execReset_inv ht
  · exact h.frame rfl rfl
  · have hmoved : State.Inv { s with host := rest } := h.frame rfl rfl
    exact hmoved.execWord hr ht
  · exact h
  · exact h.busyStep hr ht

/-- Settles O47: `State.reset` has the values of R42. -/
theorem invariantHoldsAtReset : Obligations.InvariantHoldsAtReset := .of_resetValues rfl rfl rfl rfl

end Sys2Proof.Machine
end

section
/-! SUPPORT. Little-endian packing, by sums and by bits (R13, R53): the words of a block, the block and digest ports (R52,
R60), and the table IV as fractional parts of square roots (R55). -/

namespace Sys2Proof.Machine

/-! ### The number of a list of bytes -/

/-- Bit `n` of the number is bit `n mod 8` of byte `n div 8`. -/
theorem testBit_leNat (bs : List Byte) (n : Nat) :
    (leNat bs).testBit n = (bs.getD (n / 8) 0).getLsbD (n % 8) := by
  induction bs generalizing n with
  | nil => simp [leNat]
  | cons b bs ih =>
    have hsplit : (leNat (b :: bs)).testBit n = if n < 8 then b.toNat.testBit n else (leNat bs).testBit (n - 8) := by
      rw [leNat, Nat.add_comm]
      exact Nat.testBit_two_pow_mul_add (i := 8) _ b.isLt n
    rw [hsplit]
    split
    case isTrue hlow => simp [Nat.div_eq_of_lt hlow, Nat.mod_eq_of_lt hlow, BitVec.testBit_toNat]
    case isFalse hhigh =>
      obtain ⟨m, rfl⟩ : ∃ m, n = m + 8 := ⟨n - 8, by omega⟩
      simp [ih]

/-! ### The words of a block -/

theorem memRead_four (b : Block) (i : Fin 16) :
    memRead b (4 * i.val) 4 =
      leNat [b[4 * i.val], b[4 * i.val + 1], b[4 * i.val + 2], b[4 * i.val + 3]] := by
  have hbytes : (b.toList.drop (4 * i.val)).take 4 =
      [b[4 * i.val], b[4 * i.val + 1], b[4 * i.val + 2], b[4 * i.val + 3]] := by
    apply List.ext_getElem
    · simp; omega
    · intro j hj hj'
      simp at hj'
      match j with
      | 0 | 1 | 2 | 3 => simp
      | j + 4 => omega
  rw [memRead, hbytes]

theorem blockWords_getElem (b : Block) (i : Fin 16) :
    (blockWords b)[i] = BitVec.ofNat 32 (memRead b (4 * i.val) 4) := by
  simp [blockWords]

/-- R53: word `i` is the sum of its four bytes, the lowest offset least significant. -/
theorem blockWords_toNat (b : Block) (i : Fin 16) :
    ((blockWords b)[i]).toNat =
      b[4 * i.val].toNat + 2 ^ 8 * b[4 * i.val + 1].toNat + 2 ^ 16 * b[4 * i.val + 2].toNat +
        2 ^ 24 * b[4 * i.val + 3].toNat := by
  rw [blockWords_getElem, memRead_four, BitVec.toNat_ofNat]
  simp only [leNat]
  omega

/-- R53 by bits: bit `n` of word `i` is bit `n mod 8` of byte `4i + n div 8`. -/
theorem blockWords_getLsbD (b : Block) (i : Fin 16) (n : Nat) (hn : n < 32) :
    ((blockWords b)[i]).getLsbD n = b[4 * i.val + n / 8].getLsbD (n % 8) := by
  rw [blockWords_getElem, BitVec.getLsbD_ofNat, memRead, testBit_leNat]
  have hq : n / 8 < 4 := by omega
  have hk : 4 * i.val + n / 8 < 64 := by omega
  simp [hn, hq, hk]

theorem padBlock_toNat (keep : Nat) (b : Block) (k : Fin 64) :
    ((padBlock keep b)[k]).toNat = if k.val < keep then b[k].toNat else 0 := by
  simp only [padBlock, Fin.getElem_fin, Vector.getElem_ofFn]
  split <;> rfl

/-- Settles O40, by the four bytes that a word reads. -/
theorem loadedWordsAreLittleEndian : Obligations.LoadedWordsAreLittleEndian := by
  intro b keep i B
  refine ⟨blockWords_toNat b i, blockWords_getElem b i, ?_⟩
  have hpad : ∀ k : Fin 64, ((padBlock keep b)[k]).toNat = B k := padBlock_toNat keep b
  rw [loadBlock, blockWords_toNat]
  simp only [← hpad, Fin.getElem_fin]

/-! ### The ports -/

theorem unpackBlock_getElem (p : BitVec 512) (k : Fin 64) :
    (unpackBlock p)[k] = p.extractLsb' (8 * k.val) 8 := by
  simp [unpackBlock]

/-- R60 by bits: bit `n` of the digest port is bit `n mod 8` of byte `n div 8`. -/
theorem packDigest_getLsbD (d : DigestBuffer) (n : Nat) (hn : n < 256) :
    (packDigest d).getLsbD n = d[n / 8].getLsbD (n % 8) := by
  rw [packDigest, BitVec.getLsbD_ofNat, testBit_leNat]
  have hk : n / 8 < 32 := by omega
  simp [hn, hk]

theorem digestBytes_full_getElem (h : Words8) (k : Fin 32) : (digestBytes h 32)[k] = wordByte h[k.val / 4] (k.val % 4) := by
  simp [digestBytes, digestByte]

/-- R52: word `i` of the block on the port is the `i`-th slice of 32 bits. -/
theorem blockWords_unpackBlock_getElem (p : BitVec 512) (i : Fin 16) :
    (blockWords (unpackBlock p))[i] = p.extractLsb' (32 * i.val) 32 := by
  refine BitVec.eq_of_getLsbD_eq fun n hn => ?_
  have hbyte : (unpackBlock p)[4 * i.val + n / 8] = p.extractLsb' (8 * (4 * i.val + n / 8)) 8 :=
    unpackBlock_getElem p ⟨4 * i.val + n / 8, by omega⟩
  have hpos : 8 * (4 * i.val + n / 8) + n % 8 = 32 * i.val + n := by omega
  rw [blockWords_getLsbD _ _ _ hn, hbyte, BitVec.getLsbD_extractLsb', BitVec.getLsbD_extractLsb', hpos]
  simp [hn, Nat.mod_lt]

/-- R60: byte `k` of the digest buffer is the `k`-th slice of 8 bits of the port. -/
theorem packDigest_extract_byte (d : DigestBuffer) (k : Fin 32) : (packDigest d).extractLsb' (8 * k.val) 8 = d[k] := by
  refine BitVec.eq_of_getLsbD_eq fun n hn => ?_
  have hdiv : (8 * k.val + n) / 8 = k.val := by omega
  have hmod : (8 * k.val + n) % 8 = n := by omega
  rw [BitVec.getLsbD_extractLsb', packDigest_getLsbD _ _ (by omega)]
  simp [hn, hdiv, hmod]

/-- R60 with R59: word `i` of the hash state is the `i`-th slice of 32 bits of the port of a full digest. -/
theorem packDigest_extract_word (h : Words8) (i : Fin 8) :
    (packDigest (digestBytes h 32)).extractLsb' (32 * i.val) 32 = h[i] := by
  refine BitVec.eq_of_getLsbD_eq fun n hn => ?_
  have hbyte := digestBytes_full_getElem h ⟨(32 * i.val + n) / 8, by omega⟩
  have hword : (32 * i.val + n) / 8 / 4 = i.val := by omega
  have hbit : 8 * ((32 * i.val + n) / 8 % 4) + (32 * i.val + n) % 8 = n := by omega
  rw [BitVec.getLsbD_extractLsb', packDigest_getLsbD _ _ (by omega)]
  simp only [Fin.getElem_fin] at hbyte ⊢
  rw [hbyte, wordByte, BitVec.getLsbD_extractLsb', hbit]
  simp [hn, hword, Nat.mod_lt]

/-- Settles O53, by the slices of the two ports, each compared bit by bit. -/
theorem portsArePackedLittleEndian : Obligations.PortsArePackedLittleEndian :=
  ⟨unpackBlock_getElem, blockWords_unpackBlock_getElem, packDigest_extract_byte, packDigest_extract_word⟩

/-! ### The table IV -/

/-- R55: `IV[i]` is the 32 bits after the point of the square root of its prime. -/
theorem iv_bounds : ∀ p ∈ ([(0, 2), (1, 3), (2, 5), (3, 7), (4, 11), (5, 13), (6, 17), (7, 19)] : List (Fin 8 × Nat)),
    let n := 2 ^ 32 * p.2.sqrt + IV[p.1].toNat
    n * n ≤ p.2 * 2 ^ 64 ∧ p.2 * 2 ^ 64 < (n + 1) * (n + 1) := by
  decide +kernel

/-- Settles O30: the root of `p 2^64` is the whole part of the root of `p`, then the 32 bits of `IV`. -/
theorem ivIsTheSquareRootsOfPrimes : Obligations.IvIsTheSquareRootsOfPrimes := by
  intro p hp
  obtain ⟨hle, hlt⟩ := iv_bounds p hp
  exact ⟨_, hle, hlt, by rw [Nat.mul_add_mod, Nat.mod_eq_of_lt IV[p.1].isLt]⟩

end Sys2Proof.Machine
end

section
/-! SUPPORT. The encodings (R76 to R92): the decoder by opcode, the fields of each command word, the step words. -/

namespace Sys2Proof

/-! ### Fields of a word -/

/-- A field of a word as a number. -/
theorem toNat_extractLsb' {n : Nat} (w : BitVec n) (lo len : Nat) :
    (w.extractLsb' lo len).toNat = w.toNat / 2 ^ lo % 2 ^ len := by
  rw [BitVec.extractLsb'_toNat, Nat.shiftRight_eq_div_pow]

theorem opField_toNat (w : BitVec 16) : (opField w).toNat = w.toNat % 8 := by
  simp [opField]

/-- A word is its opcode and its upper bits (R77). -/
theorem toNat_eq_op_add_upper (w : BitVec 16) :
    w.toNat = (opField w).toNat + 8 * (w.extractLsb' 3 13).toNat := by
  rw [opField_toNat, toNat_extractLsb']
  omega

theorem field_eq_iff {n lo len : Nat} {w : BitVec n} {x : BitVec len} :
    w.extractLsb' lo len = x ↔ w.toNat / 2 ^ lo % 2 ^ len = x.toNat := by
  rw [← BitVec.toNat_inj, toNat_extractLsb']

/-! ### The decoder, one equation for each opcode (R77, R82, R83) -/

section DecodeOp

variable {w : BitVec 16}

theorem decode_of_op_nop (h : opField w = 0) :
    decode w = if w.extractLsb' 3 13 = 0 then .ok .nop else .error .reservedBits := by
  simp [decode, h]

theorem decode_of_op_init (h : opField w = 1) :
    decode w = if w.extractLsb' 15 1 = 0 then .ok (.init (w.extractLsb' 3 6) (w.extractLsb' 9 6))
      else .error .reservedBits := by
  simp [decode, h]

theorem decode_of_op_update (h : opField w = 2) :
    decode w = if w.extractLsb' 3 13 = 0 then .ok .update else .error .reservedBits := by
  simp [decode, h]

theorem decode_of_op_finish (h : opField w = 3) :
    decode w = if w.extractLsb' 10 6 = 0 then
        if w.extractLsb' 3 7 ≤ 64#7 then .ok (.finish (w.extractLsb' 3 7)) else .error .finishLength
      else .error .reservedBits := by
  simp [decode, h]

theorem decode_of_op_digest (h : opField w = 4) :
    decode w = if w.extractLsb' 3 13 = 0 then .ok .digest else .error .reservedBits := by
  simp [decode, h]

theorem decode_of_op_trace (h : opField w = 5) :
    decode w = if w.extractLsb' 4 12 = 0 then .ok (.trace (w.getLsbD 3)) else .error .reservedBits := by
  simp [decode, h]

theorem decode_of_op_six (h : opField w = 6) : decode w = .ok (.reservedOp6 (w.extractLsb' 3 13)) := by
  simp [decode, h]

theorem decode_of_op_seven (h : opField w = 7) : decode w = .ok (.reservedOp7 (w.extractLsb' 3 13)) := by
  simp [decode, h]

end DecodeOp

theorem opField_cases (w : BitVec 16) :
    opField w = 0 ∨ opField w = 1 ∨ opField w = 2 ∨ opField w = 3 ∨ opField w = 4 ∨ opField w = 5 ∨ opField w = 6 ∨
      opField w = 7 := by
  generalize opField w = op
  revert op
  decide

/-! ### The words as numbers (R79 to R81, R83): no formula overflows -/

@[simp] theorem initWord_toNat (nn kk : BitVec 6) : (initWord nn kk).toNat = 1 + 8 * nn.toNat + 512 * kk.toNat := by
  rw [initWord, BitVec.toNat_ofNat]
  omega

@[simp] theorem finishWord_toNat (len : BitVec 7) : (finishWord len).toNat = 3 + 8 * len.toNat := by
  rw [finishWord, BitVec.toNat_ofNat]
  omega

@[simp] theorem traceWord_toNat (en : Bool) : (traceWord en).toNat = 5 + 8 * en.toNat := by
  cases en <;> rfl

@[simp] theorem reservedWord6_toNat (hi : BitVec 13) : (reservedWord6 hi).toNat = 6 + 8 * hi.toNat := by
  rw [reservedWord6, BitVec.toNat_ofNat]
  omega

@[simp] theorem reservedWord7_toNat (hi : BitVec 13) : (reservedWord7 hi).toNat = 7 + 8 * hi.toNat := by
  rw [reservedWord7, BitVec.toNat_ofNat]
  omega

/-! ### Each command's word decodes to the command -/

theorem decode_initWord (nn kk : BitVec 6) : decode (initWord nn kk) = .ok (.init nn kk) := by
  have hop : opField (initWord nn kk) = 1 := field_eq_iff.mpr (by rw [initWord_toNat]; bv_omega)
  have hnn : (initWord nn kk).extractLsb' 3 6 = nn := field_eq_iff.mpr (by rw [initWord_toNat]; omega)
  have hkk : (initWord nn kk).extractLsb' 9 6 = kk := field_eq_iff.mpr (by rw [initWord_toNat]; omega)
  have hrest : (initWord nn kk).extractLsb' 15 1 = 0 := field_eq_iff.mpr (by rw [initWord_toNat]; bv_omega)
  rw [decode_of_op_init hop, if_pos hrest, hnn, hkk]

theorem decode_finishWord {len : BitVec 7} (hlen : len ≤ 64#7) : decode (finishWord len) = .ok (.finish len) := by
  have hop : opField (finishWord len) = 3 := field_eq_iff.mpr (by rw [finishWord_toNat]; bv_omega)
  have hfield : (finishWord len).extractLsb' 3 7 = len := field_eq_iff.mpr (by rw [finishWord_toNat]; omega)
  have hrest : (finishWord len).extractLsb' 10 6 = 0 := field_eq_iff.mpr (by rw [finishWord_toNat]; bv_omega)
  rw [decode_of_op_finish hop, if_pos hrest, hfield, if_pos hlen]

theorem decode_traceWord (en : Bool) : decode (traceWord en) = .ok (.trace en) := by
  cases en <;> rfl

theorem decode_reservedWord6 (hi : BitVec 13) : decode (reservedWord6 hi) = .ok (.reservedOp6 hi) := by
  have hop : opField (reservedWord6 hi) = 6 := field_eq_iff.mpr (by rw [reservedWord6_toNat]; bv_omega)
  have hfield : (reservedWord6 hi).extractLsb' 3 13 = hi := field_eq_iff.mpr (by rw [reservedWord6_toNat]; omega)
  rw [decode_of_op_six hop, hfield]

theorem decode_reservedWord7 (hi : BitVec 13) : decode (reservedWord7 hi) = .ok (.reservedOp7 hi) := by
  have hop : opField (reservedWord7 hi) = 7 := field_eq_iff.mpr (by rw [reservedWord7_toNat]; bv_omega)
  have hfield : (reservedWord7 hi).extractLsb' 3 13 = hi := field_eq_iff.mpr (by rw [reservedWord7_toNat]; omega)
  rw [decode_of_op_seven hop, hfield]

/-- Settles O1: the word of each command decodes to it by the word's fields. -/
theorem decodeOfEncodeIsIdentity : Obligations.DecodeOfEncodeIsIdentity := by
  intro i hwf hcmd
  cases i with
  | nop | update | digest => exact ⟨_, rfl, rfl⟩
  | init nn kk => exact ⟨_, rfl, decode_initWord nn kk⟩
  | finish len => exact ⟨_, rfl, decode_finishWord (by simpa [Instr.wellFormed] using hwf)⟩
  | trace en => exact ⟨_, rfl, decode_traceWord en⟩
  | reservedOp6 hi => exact ⟨_, rfl, decode_reservedWord6 hi⟩
  | reservedOp7 hi => exact ⟨_, rfl, decode_reservedWord7 hi⟩
  | gstep | add32 | xor32 | rotr | g | round | f | reset | hash => simp [Instr.isCommand] at hcmd

/-! ### Each word that decodes is the word of its instruction -/

/-- A word of an opcode whose upper bits are all reserved. -/
theorem eq_of_upper_zero {w : BitVec 16} {op : BitVec 3} (hop : opField w = op) (h : w.extractLsb' 3 13 = 0) :
    w = op.zeroExtend 16 := by
  have hw := toNat_eq_op_add_upper w
  rw [hop, h] at hw
  bv_omega

theorem initWord_fields {w : BitVec 16} (hop : opField w = 1) (h : w.extractLsb' 15 1 = 0) :
    initWord (w.extractLsb' 3 6) (w.extractLsb' 9 6) = w := by
  have hlow := field_eq_iff.mp hop
  have hhigh := field_eq_iff.mp h
  apply BitVec.eq_of_toNat_eq
  rw [initWord_toNat, toNat_extractLsb', toNat_extractLsb']
  bv_omega

theorem finishWord_field {w : BitVec 16} (hop : opField w = 3) (h : w.extractLsb' 10 6 = 0) :
    finishWord (w.extractLsb' 3 7) = w := by
  have hlow := field_eq_iff.mp hop
  have hhigh := field_eq_iff.mp h
  apply BitVec.eq_of_toNat_eq
  rw [finishWord_toNat, toNat_extractLsb']
  bv_omega

theorem reservedWord6_field {w : BitVec 16} (hop : opField w = 6) : reservedWord6 (w.extractLsb' 3 13) = w := by
  apply BitVec.eq_of_toNat_eq
  rw [reservedWord6_toNat, toNat_eq_op_add_upper w, hop]
  rfl

theorem reservedWord7_field {w : BitVec 16} (hop : opField w = 7) : reservedWord7 (w.extractLsb' 3 13) = w := by
  apply BitVec.eq_of_toNat_eq
  rw [reservedWord7_toNat, toNat_eq_op_add_upper w, hop]
  rfl

theorem traceWord_field {w : BitVec 16} (hop : opField w = 5) (h : w.extractLsb' 4 12 = 0) :
    traceWord (w.getLsbD 3) = w := by
  have hlow := field_eq_iff.mp hop
  have hhigh := field_eq_iff.mp h
  have hbit := Nat.toNat_testBit w.toNat 3
  apply BitVec.eq_of_toNat_eq
  rw [traceWord_toNat, ← BitVec.testBit_toNat, hbit]
  bv_omega

/-- A condition on the bits of a word that decodes. -/
theorem ite_ok_eq_ok {c : Prop} [Decidable c] {x : Except IllegalWord Instr} {i : Instr} {e : IllegalWord} :
    (if c then x else .error e) = .ok i ↔ c ∧ x = .ok i := by
  split <;> simp [*]

/-- Settles O2: by its opcode and the bits its format reserves, the word is the one its fields give. -/
theorem encodeOfDecodeIsIdentity : Obligations.EncodeOfDecodeIsIdentity := by
  intro w i hdec
  obtain hop | hop | hop | hop | hop | hop | hop | hop := opField_cases w
  · rw [decode_of_op_nop hop, ite_ok_eq_ok] at hdec
    obtain ⟨hupper, ⟨⟩⟩ := hdec
    exact ⟨congrArg some (eq_of_upper_zero hop hupper).symm, rfl, rfl⟩
  · rw [decode_of_op_init hop, ite_ok_eq_ok] at hdec
    obtain ⟨hrest, ⟨⟩⟩ := hdec
    exact ⟨congrArg some (initWord_fields hop hrest), rfl, rfl⟩
  · rw [decode_of_op_update hop, ite_ok_eq_ok] at hdec
    obtain ⟨hupper, ⟨⟩⟩ := hdec
    exact ⟨congrArg some (eq_of_upper_zero hop hupper).symm, rfl, rfl⟩
  · rw [decode_of_op_finish hop, ite_ok_eq_ok, ite_ok_eq_ok] at hdec
    obtain ⟨hrest, hlen, ⟨⟩⟩ := hdec
    exact ⟨congrArg some (finishWord_field hop hrest), decide_eq_true hlen, rfl⟩
  · rw [decode_of_op_digest hop, ite_ok_eq_ok] at hdec
    obtain ⟨hupper, ⟨⟩⟩ := hdec
    exact ⟨congrArg some (eq_of_upper_zero hop hupper).symm, rfl, rfl⟩
  · rw [decode_of_op_trace hop, ite_ok_eq_ok] at hdec
    obtain ⟨hrest, ⟨⟩⟩ := hdec
    exact ⟨congrArg some (traceWord_field hop hrest), rfl, rfl⟩
  · obtain ⟨⟩ := (decode_of_op_six hop).symm.trans hdec
    exact ⟨congrArg some (reservedWord6_field hop), rfl, rfl⟩
  · obtain ⟨⟩ := (decode_of_op_seven hop).symm.trans hdec
    exact ⟨congrArg some (reservedWord7_field hop), rfl, rfl⟩

/-! ### Step words -/

theorem encodeStep_toNat (r : Fin 10) (g : Fin 8) : (encodeStep r g).toNat = 8 * r.val + g.val := by
  rw [encodeStep, BitVec.toNat_ofNat]
  omega

theorem decodeStep_encodeStep (r : Fin 10) (g : Fin 8) : decodeStep (encodeStep r g) = some (.gstep r g) := by
  have hlt : (encodeStep r g).toNat < 80 := by rw [encodeStep_toNat]; omega
  have hr : (encodeStep r g).toNat / 8 = r.val := by rw [encodeStep_toNat]; omega
  have hg : (encodeStep r g).toNat % 8 = g.val := by rw [encodeStep_toNat]; omega
  simp [decodeStep, hlt, hr, hg]

/-- Settles O3: `8 r + g` is below 80, and a step word from 80 on fails the bound of `decodeStep`. -/
theorem stepWordsNameTheSteps : Obligations.StepWordsNameTheSteps :=
  ⟨fun r g => ⟨encodeStep_toNat r g, decodeStep_encodeStep r g⟩, fun _ h => dif_neg (Nat.not_lt.mpr h)⟩

/-- Settles O4: the formulas by `initWord_toNat` and `finishWord_toNat`, the written words by decoding each. -/
theorem specWordsDecode : Obligations.SpecWordsDecode :=
  ⟨initWord_toNat, finishWord_toNat, by decide, by decide⟩

end Sys2Proof
end

section
/-! SUPPORT. A step on a presented command word (R75, R207), and the reserved opcodes (R204). -/

namespace Sys2Proof.Machine

theorem execWord_of_decode_ok {w : BitVec 16} {i : Instr} (h : decode w = .ok i) (s : State) :
    execWord w s = exec i s := by
  rw [execWord, h]

/-- A word presented to the unit is accepted by the next step (R75). -/
theorem step_presentWord (w : BitVec 16) (s : State) : step (presentWord w s) = execWord w { s with ready := true } :=
  step_command rfl rfl

theorem withFetchWord_command (w : BitVec 16) (s : State) : s.withFetchWord 16 w.toNat = presentWord w s := by
  rw [State.withFetchWord, if_neg (by decide), BitVec.ofNat_toNat, BitVec.setWidth_eq]

/-- Settles O6: a ready unit executes the word at the head of the host's list, and `withFetchWord` puts it there. -/
theorem stepRunsDecodedCommand : Obligations.StepRunsDecodedCommand := by
  intro s w i hdec
  constructor
  · intro rest hh hr
    rw [step_command hh hr, execWord_of_decode_ok hdec]
  · rw [withFetchWord_command, step_presentWord, execWord_of_decode_ok hdec]

theorem raiseError_illegal (s : State) :
    raiseError .illegal s = { s with resp := .illegalCommand, fault := s.fault ||| 0b100 } := rfl

/-- Settles O20: both opcodes raise IllegalCommand and read no operand. -/
theorem reservedOpcodesRaiseIllegalCommand : Obligations.ReservedOpcodesRaiseIllegalCommand :=
  fun s _ => ⟨congrArg Host.Outcome.next (raiseError_illegal s), congrArg Host.Outcome.next (raiseError_illegal s)⟩

end Sys2Proof.Machine
end

section
/-! SUPPORT. The signal level (R99 to R102): what a cycle can do, a command from its acceptance to its response, reset, the
packing of the trace ports. -/

namespace Sys2Proof.Machine

/-! ### The log and TRACE_EN after a command word -/

theorem commandNext_ready {i : Instr} {s : State} (hr : s.ready = true) : (commandNext i s).ready = true := by
  cases he : commandError s.phase i with
  | some e => rw [commandNext_of_error he]; exact hr
  | none =>
    rw [commandNext_of_success he]
    cases i <;> simp [commandResult, hr]

theorem execWord_ready {w : BitVec 16} {s t : State} (hr : s.ready = true) (h : execWord w s = .next t) :
    t.ready = true := by
  obtain ⟨i, -, -, rfl⟩ | ⟨-, rfl⟩ := execWord_cases h
  · exact commandNext_ready hr
  · exact hr

/-- The events of a command word are what it appends to the log (R214). -/
theorem trace_of_execWord {w : BitVec 16} {b : Block} {s t : State} (h : execWord w { s with block := b } = .next t) :
    t.trace = s.trace ++ commandEvents w b s := by
  obtain ⟨u, hu, htrace⟩ := execWord_trace w b s
  obtain rfl : u = t := by simpa [hu] using h
  exact htrace

theorem commandEvents_eq_nil_of_traceEn {s : State} (h : s.traceEn = false) (w : BitVec 16) (b : Block) :
    commandEvents w b s = [] :=
  commandEvents_eq_nil fun hemits => absurd hemits.1 (by simp [h])

/-- A command word that ends with TRACE_EN = 0 has emitted nothing: TRACE emits nothing, and no other command writes
TRACE_EN (R47, R214). -/
theorem commandEvents_eq_nil_of_traceEn_next {w : BitVec 16} {b : Block} {s t : State}
    (h : execWord w { s with block := b } = .next t) (hoff : t.traceEn = false) : commandEvents w b s = [] := by
  obtain ⟨i, -, -, rfl⟩ | ⟨-, rfl⟩ := execWord_cases h
  · by_cases htrace : ∃ en, i = .trace en
    · obtain ⟨en, rfl⟩ := htrace
      exact List.self_eq_append_right.mp (trace_of_execWord (s := s) (t := commandNext _ _) h)
    · have hkept := commandNext_traceEn (fun en hi => htrace ⟨en, hi⟩) { s with block := b }
      exact commandEvents_eq_nil_of_traceEn (hkept.symm.trans hoff) w b
  · exact commandEvents_eq_nil_of_traceEn (s := s) hoff w b

/-! ### The events of one cycle -/

theorem eventsNow_eq_nil {c : Running} {s : State} (h : commandEvents c.word c.sampled s = []) : eventsNow c s = [] := by
  simp [eventsNow, h]

/-- What has shown and what is on show are a first part of the events (R102). -/
theorem shown_append_eventsNow_prefix (c : Running) (s : State) :
    (commandEvents c.word c.sampled s).take c.shown ++ eventsNow c s <+: commandEvents c.word c.sampled s := by
  rw [eventsNow_extends]
  exact List.take_prefix _ _

/-- The events on show are among those that have not shown. -/
theorem shown_add_eventsNow_le {c : Running} {s : State} (h : c.shown ≤ (commandEvents c.word c.sampled s).length) :
    c.shown + (eventsNow c s).length ≤ (commandEvents c.word c.sampled s).length := by
  have hlen := (shown_append_eventsNow_prefix c s).length_le
  rwa [List.length_append, List.length_take_of_le h] at hlen

/-! ### One cycle -/

/-- The command that runs in a cycle without reset, as the cycle sees it: the one under way with a cycle less to go, or the
one that the cycle accepts (R100). -/
def commandInCycle (p : PortsIn) (x : SigState) : Option Running :=
  match x.running with
  | some c => some { c with left := c.left - 1 }
  | none =>
    if p.cmdValid then
      some { word := p.cmd, sampled := unpackBlock p.block, left := Config.lat (opField p.cmd) x.unit.traceEn, shown := 0 }
    else none

/-- The state after a cycle in which the command waits for its response. -/
def waitCycle (c : Running) (x : SigState) : SigState :=
  { x with running := some { c with shown := c.shown + (eventsNow c x.unit).length }, respValid := false,
           tracing := eventsNow c x.unit }

/-- The state after the cycle of the response, with the unit in state `t`. -/
def answerCycle (c : Running) (x : SigState) (t : State) : SigState :=
  { unit := t, running := none, respValid := true, tracing := eventsNow c x.unit }

/-- The state after a cycle without a command. -/
def idleCycle (x : SigState) : SigState := { x with respValid := false, tracing := [] }

theorem cycle_reset {p : PortsIn} (hp : p.rstN = false) (x : SigState) : cycle p x = resetEdge x := by
  rw [cycle, if_pos hp]

theorem cycle_command {p : PortsIn} {x : SigState} {c : Running} (hp : p.rstN = true) (hc : commandInCycle p x = some c) :
    cycle p x = runCycle c x := by
  unfold commandInCycle at hc
  cases hx : x.running <;> simp_all [cycle]

theorem cycle_idle {p : PortsIn} {x : SigState} (hp : p.rstN = true) (hc : commandInCycle p x = none) :
    cycle p x = .next (idleCycle x) ∧ x.running = none := by
  unfold commandInCycle at hc
  cases hx : x.running <;> simp_all [cycle, idleCycle]

theorem runCycle_wait {c : Running} (h : c.left ≠ 0) (x : SigState) : runCycle c x = .next (waitCycle c x) := by
  rw [runCycle, if_neg h]
  rfl

theorem runCycle_answer {c : Running} (h : c.left = 0) (x : SigState) :
    ∃ t, execWord c.word { x.unit with block := c.sampled } = .next t ∧ runCycle c x = .next (answerCycle c x t) := by
  obtain ⟨t, ht, -⟩ := execWord_trace c.word c.sampled x.unit
  exact ⟨t, ht, by rw [runCycle, if_pos h, completeCommand, ht]; rfl⟩

/-- What a cycle can do: reset, a wait of the command that runs in it, that command's response, or nothing. -/
theorem cycle_cases {p : PortsIn} {x y : SigState} (h : cycle p x = .next y) :
    (p.rstN = false ∧ resetEdge x = .next y) ∨
    (∃ c, commandInCycle p x = some c ∧ c.left ≠ 0 ∧ y = waitCycle c x) ∨
    (∃ c t, commandInCycle p x = some c ∧ c.left = 0 ∧ execWord c.word { x.unit with block := c.sampled } = .next t ∧
      y = answerCycle c x t) ∨
    (x.running = none ∧ y = idleCycle x) := by
  cases hp : p.rstN with
  | false => exact .inl ⟨rfl, (cycle_reset hp x).symm.trans h⟩
  | true =>
    cases hc : commandInCycle p x with
    | none =>
      obtain ⟨hidle, hx⟩ := cycle_idle hp hc
      cases hidle.symm.trans h
      exact .inr (.inr (.inr ⟨hx, rfl⟩))
    | some c =>
      rw [cycle_command hp hc] at h
      by_cases hl : c.left = 0
      · obtain ⟨t, ht, hrun⟩ := runCycle_answer hl x
        cases hrun.symm.trans h
        exact .inr (.inr (.inl ⟨c, t, rfl, hl, ht, rfl⟩))
      · cases (runCycle_wait hl x).symm.trans h
        exact .inr (.inl ⟨c, rfl, hl, rfl⟩)

/-! ### The invariant -/

/-- Settles O59: the unit by `invariantHoldsAtReset`; no command runs and nothing shows. -/
theorem signalInvariantHoldsAtReset : Obligations.SignalInvariantHoldsAtReset where
  unit := ⟨rfl, invariantHoldsAtReset⟩
  pulse h := by cases h
  events _ h := by cases h
  single _ := Nat.zero_le 1
  quiet _ := rfl

namespace SigState.Inv

variable {x : SigState}

/-- In the cycle that sees command `c`, no more events have shown than there are, and if the latency leaves a cycle for each
event, this cycle and those to come are enough for what has not shown (R102). -/
theorem commandInCycle {p : PortsIn} {c : Running} (h : x.Inv) (hc : commandInCycle p x = some c) :
    let evs := commandEvents c.word c.sampled x.unit
    c.shown ≤ evs.length ∧
      (evs.length ≤ Config.lat (opField c.word) x.unit.traceEn + 1 → evs.length ≤ c.shown + c.left + 1) := by
  unfold Machine.commandInCycle at hc
  split at hc
  case h_1 d hd =>
    obtain ⟨hshown, hroom⟩ := h.events d hd
    cases hc
    exact ⟨hshown, fun hlat => by have := hroom hlat; dsimp only; omega⟩
  case h_2 =>
    split at hc
    · cases hc
      exact ⟨Nat.zero_le _, fun hlat => by simpa using hlat⟩
    · cases hc

theorem waitCycle {p : PortsIn} {c : Running} (h : x.Inv) (hc : Machine.commandInCycle p x = some c) (hl : c.left ≠ 0) :
    (waitCycle c x).Inv where
  unit := h.unit
  pulse hv := by cases hv
  events _ hd := by
    obtain ⟨hshown, hroom⟩ := h.commandInCycle hc
    cases hd
    exact ⟨shown_add_eventsNow_le hshown, fun hlat => (eventsNow_fits (hroom hlat)).2⟩
  single _ := eventsNow_length_le_one hl x.unit
  quiet hoff := eventsNow_eq_nil (commandEvents_eq_nil_of_traceEn hoff _ _)

theorem answerCycle {c : Running} {t : State} (h : x.Inv)
    (ht : execWord c.word { x.unit with block := c.sampled } = .next t) : (answerCycle c x t).Inv where
  unit := by
    have hsampled : State.Inv { x.unit with block := c.sampled } := h.unit.2.frame rfl rfl
    exact ⟨execWord_ready (s := { x.unit with block := c.sampled }) h.unit.1 ht, hsampled.execWord h.unit.1 ht⟩
  pulse _ := rfl
  events _ hd := by cases hd
  single hv := by cases hv
  quiet hoff := eventsNow_eq_nil (commandEvents_eq_nil_of_traceEn_next ht hoff)

theorem idleCycle (h : x.Inv) (hx : x.running = none) : (idleCycle x).Inv where
  unit := h.unit
  pulse hv := by cases hv
  events _ hd := by cases hx.symm.trans hd
  single _ := Nat.zero_le 1
  quiet _ := rfl

end SigState.Inv

theorem resetEdge_eq (x : SigState) :
    ∃ t, exec .reset { x.unit with trace := x.unit.trace ++ eventsShown x } = .next t ∧
      resetEdge x = .next { unit := t, running := none, respValid := false, tracing := [] } :=
  ⟨_, rfl, rfl⟩

/-- After reset the invariant holds, whatever the unit was doing (R101). -/
theorem resetEdge_inv {x y : SigState} (h : resetEdge x = .next y) : y.Inv := by
  obtain ⟨t, ht, hreset⟩ := resetEdge_eq x
  cases hreset.symm.trans h
  exact
    { unit := ⟨by cases ht; rfl, execReset_inv ht⟩
      pulse := fun _ => rfl
      events := fun _ hd => by cases hd
      single := fun _ => Nat.zero_le 1
      quiet := fun _ => rfl }

/-- Settles O58: each of the things a cycle can do keeps the invariant. -/
theorem signalInvariantKeptByEveryCycle : Obligations.SignalInvariantKeptByEveryCycle := by
  intro p x y hx h
  obtain ⟨-, h⟩ | ⟨c, hc, hl, rfl⟩ | ⟨c, t, -, -, ht, rfl⟩ | ⟨hidle, rfl⟩ := cycle_cases h
  · exact resetEdge_inv h
  · exact hx.waitCycle hc hl
  · exact hx.answerCycle ht
  · exact hx.idleCycle hidle

/-! ### A command from its acceptance to its response -/

theorem cycles_cons {p : PortsIn} {x y : SigState} (h : cycle p x = .next y) (ps : List PortsIn) :
    cycles (p :: ps) x = cycles ps y := by
  rw [cycles, h]

theorem eventsObserved_cons {p : PortsIn} {x y : SigState} (h : cycle p x = .next y) (ps : List PortsIn) :
    eventsObserved (p :: ps) x = y.tracing ++ eventsObserved ps y := by
  rw [eventsObserved, h]

/-- The state `y` after the cycle that sees command `c` in state `x` and the `k` cycles after it, with the events `evs`
observed in them (R100, R102). -/
structure RunsCommand (c : Running) (x : SigState) (k : Nat) (evs : List TraceEvent) (y : SigState) : Prop where
  waits : k < c.left → y.unit = x.unit ∧ y.running.isNone = false ∧ y.respValid = false
  answers : k = c.left →
    execWord c.word { x.unit with block := c.sampled } = .next y.unit ∧ y.running = none ∧ y.respValid = true
  /-- With those that had shown before, what shows is a first part of the command's events. -/
  shows : (commandEvents c.word c.sampled x.unit).take c.shown ++ evs <+: commandEvents c.word c.sampled x.unit
  /-- With the response all have shown. -/
  showsAll : k = c.left →
    (commandEvents c.word c.sampled x.unit).take c.shown ++ evs = commandEvents c.word c.sampled x.unit
  single : k < c.left ∨ (commandEvents c.word c.sampled x.unit).length ≤ c.shown + c.left + 1 → y.tracing.length ≤ 1

/-- A waiting cycle alone. -/
theorem RunsCommand.wait {c : Running} (hl : c.left ≠ 0) (x : SigState) :
    RunsCommand c x 0 (eventsNow c x.unit) (waitCycle c x) where
  waits _ := ⟨rfl, rfl, rfl⟩
  answers h := absurd h.symm hl
  shows := shown_append_eventsNow_prefix c x.unit
  showsAll h := absurd h.symm hl
  single _ := eventsNow_length_le_one hl x.unit

/-- The cycle of the response alone. -/
theorem RunsCommand.answer {c : Running} {x : SigState} {t : State} (hl : c.left = 0)
    (ht : execWord c.word { x.unit with block := c.sampled } = .next t) :
    RunsCommand c x 0 (eventsNow c x.unit) (answerCycle c x t) where
  waits h := absurd hl (Nat.ne_of_gt h)
  answers _ := ⟨ht, rfl, rfl⟩
  shows := shown_append_eventsNow_prefix c x.unit
  showsAll _ := by
    rw [eventsNow_extends]
    exact List.take_of_length_le (eventsNow_all hl x.unit)
  single h := by
    obtain h | h := h
    · exact absurd hl (Nat.ne_of_gt h)
    · exact (eventsNow_fits h).1

/-- A waiting cycle before a run of the same command, which the next cycle sees with a cycle less to go. -/
theorem RunsCommand.cons {c : Running} {x y : SigState} {k : Nat} {evs : List TraceEvent}
    (h : RunsCommand { c with shown := c.shown + (eventsNow c x.unit).length, left := c.left - 1 } (waitCycle c x) k evs y) :
    RunsCommand c x (k + 1) (eventsNow c x.unit ++ evs) y where
  waits hk := h.waits (Nat.lt_sub_of_add_lt hk)
  answers hk := h.answers (Nat.eq_sub_of_add_eq hk)
  shows := by
    rw [← List.append_assoc, eventsNow_extends]
    exact h.shows
  showsAll hk := by
    rw [← List.append_assoc, eventsNow_extends]
    exact h.showsAll (Nat.eq_sub_of_add_eq hk)
  single hk := by
    refine h.single (hk.imp Nat.lt_sub_of_add_lt fun hroom => ?_)
    have hnext := (eventsNow_fits hroom).2
    show (commandEvents c.word c.sampled x.unit).length ≤ c.shown + (eventsNow c x.unit).length + (c.left - 1) + 1
    omega

/-- The cycles of a command, from any that sees it up to that of its response, whatever the command ports show. -/
theorem cycles_runsCommand {p : PortsIn} {ps : List PortsIn} {x : SigState} {c : Running} (hp : p.rstN = true)
    (hps : ∀ q ∈ ps, q.rstN = true) (hc : commandInCycle p x = some c) (hlen : ps.length ≤ c.left) :
    ∃ y, cycles (p :: ps) x = .next y ∧ RunsCommand c x ps.length (eventsObserved (p :: ps) x) y := by
  induction ps generalizing p x c with
  | nil =>
    by_cases hl : c.left = 0
    · obtain ⟨t, ht, hrun⟩ := runCycle_answer hl x
      have hcycle := (cycle_command hp hc).trans hrun
      rw [cycles_cons hcycle, eventsObserved_cons hcycle, eventsObserved, List.append_nil]
      exact ⟨_, rfl, .answer hl ht⟩
    · have hcycle := (cycle_command hp hc).trans (runCycle_wait hl x)
      rw [cycles_cons hcycle, eventsObserved_cons hcycle, eventsObserved, List.append_nil]
      exact ⟨_, rfl, .wait hl x⟩
  | cons q qs ih =>
    have hl : c.left ≠ 0 := Nat.ne_of_gt (Nat.lt_of_lt_of_le (Nat.succ_pos _) hlen)
    have hcycle := (cycle_command hp hc).trans (runCycle_wait hl x)
    rw [cycles_cons hcycle, eventsObserved_cons hcycle]
    obtain ⟨y, hy, hruns⟩ := ih (p := q) (x := waitCycle c x) (hps q (by simp))
      (fun r hr => hps r (by simp [hr])) rfl (Nat.le_sub_one_of_lt hlen)
    exact ⟨y, hy, hruns.cons⟩

theorem commandInCycle_accept {p : PortsIn} {x : SigState} (hx : x.running = none) (hv : p.cmdValid = true) :
    commandInCycle p x = some
      { word := p.cmd, sampled := unpackBlock p.block, left := Config.lat (opField p.cmd) x.unit.traceEn, shown := 0 } := by
  simp [commandInCycle, hx, hv]

/-- With TRACE_EN = 0 no cycle shows an event (R102). -/
theorem tracing_eq_nil_of_traceEn {p : PortsIn} {x y : SigState} (hoff : x.unit.traceEn = false)
    (h : cycle p x = .next y) : y.tracing = [] := by
  have hquiet : ∀ c : Running, eventsNow c x.unit = [] := fun c =>
    eventsNow_eq_nil (commandEvents_eq_nil_of_traceEn hoff _ _)
  obtain ⟨-, h⟩ | ⟨c, -, -, rfl⟩ | ⟨c, t, -, -, -, rfl⟩ | ⟨-, rfl⟩ := cycle_cases h
  · obtain ⟨t, -, hreset⟩ := resetEdge_eq x
    cases hreset.symm.trans h
    rfl
  · exact hquiet c
  · exact hquiet c
  · rfl

/-- Settles O54, by `cycles_runsCommand` from the cycle of acceptance. -/
theorem acceptedCommandIsAnsweredAfterItsLatency : Obligations.AcceptedCommandIsAnsweredAfterItsLatency := by
  intro x p ps hx hp hv hps lat hlen
  obtain ⟨y, hy, hruns⟩ := cycles_runsCommand hp hps (commandInCycle_accept hx hv) hlen
  refine ⟨y, hy, ?_⟩
  split
  case isTrue hlt => exact hruns.waits hlt
  case isFalse hge =>
    obtain ⟨hexec, hidle, hpulse⟩ := hruns.answers (by dsimp only; omega)
    exact ⟨hexec, by simp [SigState.ports, hidle], hpulse⟩

/-- Settles O56: by `cycles_runsCommand` the observed events are those of the log; without tracing there are none. -/
theorem tracePortsShowEveryEventInOrder : Obligations.TracePortsShowEveryEventInOrder := by
  constructor
  · intro x p ps hx hp hv hps lat hlen
    obtain ⟨y, hy, hruns⟩ := cycles_runsCommand hp hps (commandInCycle_accept hx hv) hlen
    obtain ⟨t, ht, hlog⟩ := execWord_trace p.cmd (unpackBlock p.block) x.unit
    refine ⟨t, y, ht, hy, ?_, fun hend => ?_, fun hroom => hruns.single (hroom.imp_right fun h => ?_)⟩
    · rw [hlog, List.prefix_append_right_inj]
      exact hruns.shows
    · rw [hlog]
      exact congrArg _ (hruns.showsAll hend).symm
    · rw [hlog, List.length_append] at h
      dsimp only
      omega
  · intro x y p hoff h
    simp [SigState.ports, tracing_eq_nil_of_traceEn hoff h]

/-! ### Reset -/

theorem eventsShown_idle {x : SigState} (h : x.running = none) : eventsShown x = [] := by
  rw [eventsShown, h]

theorem eventsShown_running {x : SigState} {c : Running} (h : x.running = some c) :
    eventsShown x = (commandEvents c.word c.sampled x.unit).take c.shown := by
  rw [eventsShown, h]

/-- Settles O55: `resetEdge` runs RESET on the state that the command under way has left alone but for the events that have
shown. -/
theorem resetDropsTheCommandUnderWay : Obligations.ResetDropsTheCommandUnderWay := by
  intro x p hp
  obtain ⟨s, hs, hreset⟩ := resetEdge_eq x
  refine ⟨_, eventsShown x, (cycle_reset hp x).trans hreset, hs, rfl, rfl, rfl, eventsShown_idle, fun hoff => ?_,
    fun c t hc ht => ⟨_, trace_of_execWord ht, eventsShown_running hc⟩⟩
  cases hx : x.running with
  | none => exact eventsShown_idle hx
  | some c => rw [eventsShown_running hx, commandEvents_eq_nil_of_traceEn hoff, List.take_nil]

/-! ### The trace ports -/

/-- Bit `j` of word `i` stands at bit `32 i + j` of the words packed one after another (R102). -/
theorem testBit_packedWords (ws : List Word) (i : Nat) (hi : i < ws.length) (j : Nat) (hj : j < 32) :
    (ws.foldr (fun (w : Word) acc => w.toNat + 2 ^ 32 * acc) 0).testBit (32 * i + j) = ws[i].getLsbD j := by
  induction ws generalizing i with
  | nil => simp at hi
  | cons w ws ih =>
    rw [List.foldr_cons, Nat.add_comm, Nat.testBit_two_pow_mul_add _ w.isLt]
    cases i with
    | zero => simp [hj, BitVec.testBit_toNat]
    | succ i =>
      have hpos : 32 * (i + 1) + j - 32 = 32 * i + j := by omega
      rw [if_neg (by omega), hpos, ih i (by simpa using hi)]
      rfl

/-- Word `i` of packed words is the slice of bits `32 i` to `32 i + 31` (R102). -/
theorem packWords_extractLsb' {n : Nat} {ws : List Word} (hn : 32 * ws.length ≤ n) (i : Nat) (hi : i < ws.length) :
    (packWords n ws).extractLsb' (32 * i) 32 = ws[i] := by
  refine BitVec.eq_of_getLsbD_eq fun j hj => ?_
  have hlt : 32 * i + j < n := by omega
  rw [BitVec.getLsbD_extractLsb', packWords, BitVec.getLsbD_ofNat, testBit_packedWords ws i hi j hj]
  simp [hj, hlt]

theorem packWords_vector {k n : Nat} (ws : Vector Word k) (hn : 32 * k ≤ n) (i : Fin k) :
    (packWords n ws.toList).extractLsb' (32 * i.val) 32 = ws[i] := by
  rw [packWords_extractLsb' (by simpa using hn) i (by simp), Vector.getElem_toList]
  rfl

theorem ofNat_toNat_fin {n k : Nat} (hk : k ≤ 2 ^ n) (i : Fin k) : (BitVec.ofNat n i.val).toNat = i.val := by
  rw [BitVec.toNat_ofNat, Nat.mod_eq_of_lt (Nat.lt_of_lt_of_le i.isLt hk)]

/-- Settles O57, by `packWords_vector` for the words and `ofNat_toNat_fin` for `round` and `g`. -/
theorem tracePortsArePacked : Obligations.TracePortsArePacked := by
  refine ⟨fun x => ⟨fun h => ?_, fun e h => ?_⟩, fun blk r v m => ?_, fun blk r g i x => ?_⟩
  · simp [SigState.ports, h]
  · simp [SigState.ports, h]
  · have hround : (BitVec.ofNat 4 r.val).toNat = r.val := ofNat_toNat_fin (by decide) r
    have hwords : ∀ i : Fin 16, (packWords 512 v.toList).extractLsb' (32 * i.val) 32 = v[i] ∧
        (packWords 512 m.toList).extractLsb' (32 * i.val) 32 = m[i] := fun i =>
      ⟨packWords_vector v (by decide) i, packWords_vector m (by decide) i⟩
    rw [List.forall_mem_cons, List.forall_mem_singleton]
    exact ⟨⟨rfl, rfl, hround, _, _, rfl, rfl, hwords⟩, ⟨rfl, rfl, hround, _, _, rfl, rfl, hwords⟩⟩
  · exact ⟨rfl, rfl, ofNat_toNat_fin (by decide) r, ⟨_, rfl, ofNat_toNat_fin (by decide) g⟩, _, rfl,
      packWords_vector #v[i.a, i.b, i.c, i.d, i.m0, i.m1, x.a1, x.d1, x.c1, x.b1, x.a2, x.b2, x.c2, x.d2] (by decide)⟩

end Sys2Proof.Machine
end

section
/-! SUPPORT. The word operations and G (R105 to R112): the rotations bit by bit, the eight lines of G, each undone by
`mixGInv`. -/

namespace Sys2Proof

theorem RotDist.bits_pos (n : RotDist) : 0 < n.bits := by cases n <;> decide

theorem RotDist.bits_lt (n : RotDist) : n.bits < 32 := by cases n <;> decide

end Sys2Proof

namespace Sys2Proof.Machine

/-! ### Rotations -/

theorem rotr32_eq_rotateRight {n : Nat} (hn : n < 32) (x : Word) : rotr32 x n = x.rotateRight n :=
  (BitVec.rotateRight_eq_rotateRightAux_of_lt hn).symm

theorem getElem_rotr32 {n : Nat} (hn : n < 32) (x : Word) {i : Nat} (hi : i < 32) :
    (rotr32 x n)[i] = x[(i + n) % 32]'(Nat.mod_lt _ (by decide)) := by
  simp only [rotr32_eq_rotateRight hn, BitVec.getElem_rotateRight, Nat.mod_eq_of_lt hn]
  split <;>
  · congr 1
    omega

theorem rotl32_eq_rotr32 {n : Nat} (hn : n ≤ 32) (x : Word) : rotl32 x n = rotr32 x (32 - n) := by
  rw [rotl32, rotr32, Nat.sub_sub_self hn, BitVec.or_comm]

/-- Two right rotations by a whole word together (the rotate law of R108, with the left rotation written as a right one). -/
theorem rotr32_rotr32 {m n : Nat} (hm : 0 < m) (hn : 0 < n) (h : m + n = 32) (x : Word) : rotr32 (rotr32 x m) n = x := by
  ext i hi
  have hindex : ((i + n) % 32 + m) % 32 = i := by omega
  rw [getElem_rotr32 (by omega), getElem_rotr32 (by omega)]
  simp only [hindex]

theorem rotr32_rotl32 {n : Nat} (hpos : 0 < n) (hlt : n < 32) (x : Word) : rotr32 (rotl32 x n) n = x := by
  rw [rotl32_eq_rotr32 (by omega), rotr32_rotr32 (by omega) hpos (by omega)]

theorem rotl32_rotr32 {n : Nat} (hpos : 0 < n) (hlt : n < 32) (x : Word) : rotl32 (rotr32 x n) n = x := by
  rw [rotl32_eq_rotr32 (by omega), rotr32_rotr32 hpos (by omega) (by omega)]

/-- Settles O27, by `rotr32_rotl32`. -/
theorem rotateRightUndoesRotateLeft : Obligations.RotateRightUndoesRotateLeft :=
  fun x n => ⟨rotr32_rotl32 n.bits_pos n.bits_lt x, rotl32_eq_rotr32 n.bits_lt.le x⟩

/-! ### The word operations run on their own -/

theorem addWords_toNat (x y : Word) : (addWords x y).toNat = (x.toNat + y.toNat) % 2 ^ 32 := BitVec.toNat_add x y

theorem addWords3_toNat (x y z : Word) : (addWords3 x y z).toNat = (x.toNat + y.toNat + z.toNat) % 2 ^ 32 := by
  rw [addWords3, addWords_toNat, addWords_toNat, Nat.mod_add_mod]

/-- Settles O26: each leaves its word by `setMicroResult`; the bits of ROTR are those of `getElem_rotr32`. -/
theorem wordOperationsLeaveTheirResult : Obligations.WordOperationsLeaveTheirResult := fun _ x y z n =>
  ⟨⟨_, rfl, addWords_toNat x y⟩, ⟨_, rfl, addWords3_toNat x y z⟩, ⟨_, rfl, fun i => BitVec.getElem_xor i.isLt⟩,
    ⟨_, rfl, fun i => getElem_rotr32 n.bits_lt x i.isLt⟩⟩

/-! ### G -/

/-- Settles O28: `execG` writes `mixG`, whose rotations are by less than a word. -/
theorem gFollowsItsEightLines : Obligations.GFollowsItsEightLines := fun _ a b c d m0 m1 =>
  ⟨mixG { a, b, c, d, m0, m1 }, rfl, rfl, rotr32_eq_rotateRight (by decide) _, rfl, rotr32_eq_rotateRight (by decide) _,
    rfl, rotr32_eq_rotateRight (by decide) _, rfl, rotr32_eq_rotateRight (by decide) _⟩

theorem addWords_sub (x y : Word) : addWords x y - y = x := BitVec.add_sub_cancel x y

theorem addWords3_sub_sub (x y z : Word) : addWords3 x y z - y - z = x := by
  rw [addWords3, addWords, addWords, sub_right_comm, BitVec.add_sub_cancel, BitVec.add_sub_cancel]

/-- A line of G that rotates the difference of two words is undone from its result and the second word. -/
theorem rotl32_rotr32_xorWords {n : Nat} (hpos : 0 < n) (hlt : n < 32) (x y : Word) :
    rotl32 (rotr32 (xorWords x y) n) n ^^^ y = x := by
  rw [rotl32_rotr32 hpos hlt, xorWords, BitVec.xor_assoc, BitVec.xor_self, BitVec.xor_zero]

/-- `Ginv` undoes G (R112): each line of `mixGInv` recovers the word that one line of `mixG` consumed. -/
theorem mixGInv_mixG (i : GIn) :
    mixGInv (mixG i).a2 (mixG i).b2 (mixG i).c2 (mixG i).d2 i.m0 i.m1 = (i.a, i.b, i.c, i.d) := by
  have hb1 : rotl32 (mixG i).b2 7 ^^^ (mixG i).c2 = (mixG i).b1 := rotl32_rotr32_xorWords (by decide) (by decide) _ _
  have hc1 : (mixG i).c2 - (mixG i).d2 = (mixG i).c1 := addWords_sub _ _
  have hd1 : rotl32 (mixG i).d2 8 ^^^ (mixG i).a2 = (mixG i).d1 := rotl32_rotr32_xorWords (by decide) (by decide) _ _
  have ha1 : (mixG i).a2 - (mixG i).b1 - i.m1 = (mixG i).a1 := addWords3_sub_sub _ _ _
  have hb : rotl32 (mixG i).b1 12 ^^^ (mixG i).c1 = i.b := rotl32_rotr32_xorWords (by decide) (by decide) _ _
  have hc : (mixG i).c1 - (mixG i).d1 = i.c := addWords_sub _ _
  have hd : rotl32 (mixG i).d1 16 ^^^ (mixG i).a1 = i.d := rotl32_rotr32_xorWords (by decide) (by decide) _ _
  have ha : (mixG i).a1 - i.b - i.m0 = i.a := addWords3_sub_sub _ _ _
  simp only [mixGInv, hb1, hc1, hd1, ha1, hb, hc, hd, ha]

/-- Settles O29: by `mixGInv_mixG` the map on quadruples is injective, and there are finitely many of them. -/
theorem gIsInvertible : Obligations.GIsInvertible := by
  refine fun m0 m1 => ⟨fun a b c d => mixGInv_mixG _, Function.Injective.bijective_of_finite ?_⟩
  refine Function.LeftInverse.injective (g := fun q => mixGInv q.1 q.2.1 q.2.2.1 q.2.2.2 m0 m1) fun q => ?_
  dsimp only
  exact mixGInv_mixG { a := q.1, b := q.2.1, c := q.2.2.1, d := q.2.2.2, m0, m1 }

end Sys2Proof.Machine
end

section
/-! SUPPORT. The tables of the scheduler (R121, R128, R130), a G call on the working vector read and written at its
quadruple (R123), and the G calls of a group, which touch disjoint quadruples (R129). -/

namespace Sys2Proof.Machine

/-! ### The tables -/

/-- Settles O31: the tables evaluated. -/
theorem tablesPermuteAndPartition : Obligations.TablesPermuteAndPartition :=
  ⟨by decide, by decide, by decide, by decide, by decide⟩

/-- The four indices of `v` that G call `g` of a round works on (R121). -/
def quadIndices (g : Fin 8) : List (Fin 16) := [QUAD[g].1, QUAD[g].2.1, QUAD[g].2.2.1, QUAD[g].2.2.2]

theorem mem_quadIndices {g : Fin 8} {j : Fin 16} :
    j ∈ quadIndices g ↔ j = QUAD[g].1 ∨ j = QUAD[g].2.1 ∨ j = QUAD[g].2.2.1 ∨ j = QUAD[g].2.2.2 := by
  simp only [quadIndices, List.mem_cons, List.not_mem_nil, or_false]

theorem quadIndices_nodup : ∀ g, (quadIndices g).Nodup := by decide

/-- G calls of a list whose quadruples are pairwise disjoint: the columns, or the diagonals (R128). -/
def DisjointQuads (gs : List (Fin 8)) : Prop := gs.Pairwise fun g g' => (quadIndices g).Disjoint (quadIndices g')

/-- Quadruples that partition the sixteen indices are disjoint. -/
theorem disjointQuads_of_perm {gs : List (Fin 8)} (h : (gs.flatMap quadIndices).Perm (List.finRange 16)) :
    DisjointQuads gs :=
  (List.nodup_flatMap.mp (h.nodup_iff.mpr (List.nodup_finRange 16))).2

theorem disjointQuads_columns : DisjointQuads [0, 1, 2, 3] := by
  obtain ⟨-, -, -, hcolumns, -⟩ := tablesPermuteAndPartition
  exact disjointQuads_of_perm hcolumns

theorem disjointQuads_diagonals : DisjointQuads [4, 5, 6, 7] := by
  obtain ⟨-, -, -, -, hdiagonals⟩ := tablesPermuteAndPartition
  exact disjointQuads_of_perm hdiagonals

/-! ### The words of `v` under a G call -/

theorem words16_ext {v w : Words16} (h : ∀ j : Fin 16, v[j] = w[j]) : v = w := Vector.ext fun i hi => h ⟨i, hi⟩

/-- Each word after the write of a quadruple (R123). The write of `d` is the last one. -/
theorem getElem_writeQuad (v : Words16) (g : Fin 8) (x : GRegs) (j : Fin 16) :
    (writeQuad v g x)[j] =
      if j = QUAD[g].2.2.2 then x.d2 else if j = QUAD[g].2.2.1 then x.c2 else if j = QUAD[g].2.1 then x.b2
      else if j = QUAD[g].1 then x.a2 else v[j] := by
  simp only [writeQuad, Fin.getElem_fin, Vector.getElem_set, Fin.ext_iff, eq_comm]

/-- A G call leaves the other twelve words unchanged (R123). -/
theorem getElem_writeQuad_of_not_mem {g : Fin 8} {j : Fin 16} (hj : j ∉ quadIndices g) (v : Words16) (x : GRegs) :
    (writeQuad v g x)[j] = v[j] := by
  simp only [mem_quadIndices, not_or] at hj
  obtain ⟨ha, hb, hc, hd⟩ := hj
  rw [getElem_writeQuad, if_neg hd, if_neg hc, if_neg hb, if_neg ha]

/-- What a G call writes to its own four words does not depend on the vector it writes to. -/
theorem getElem_writeQuad_of_mem {g : Fin 8} {j : Fin 16} (hj : j ∈ quadIndices g) (v w : Words16) (x : GRegs) :
    (writeQuad v g x)[j] = (writeQuad w g x)[j] := by
  rw [getElem_writeQuad, getElem_writeQuad]
  split_ifs with hd hc hb ha
  iterate 4 rfl
  simp only [mem_quadIndices, ha, hb, hc, hd, or_self] at hj

/-- The four words of its quadruple after a G call: no write goes over another, the indices being distinct (R123). -/
theorem getElem_writeQuad_own {g : Fin 8} {ia ib ic id : Fin 16} (hq : QUAD[g] = (ia, ib, ic, id)) (v : Words16)
    (x : GRegs) :
    (writeQuad v g x)[ia] = x.a2 ∧ (writeQuad v g x)[ib] = x.b2 ∧ (writeQuad v g x)[ic] = x.c2 ∧
      (writeQuad v g x)[id] = x.d2 := by
  have hnodup := quadIndices_nodup g
  simp only [quadIndices, hq, List.nodup_cons, List.mem_cons, List.not_mem_nil, or_false, not_or] at hnodup
  obtain ⟨⟨hab, hac, had⟩, ⟨hbc, hbd⟩, hcd, -⟩ := hnodup
  simp only [getElem_writeQuad, hq, hab, hac, had, hbc, hbd, hcd, if_true, if_false, and_self]

/-- A G call reads `v` at its own four indices only (R122). -/
theorem gOperands_congr {v w : Words16} {g : Fin 8} (h : ∀ j ∈ quadIndices g, v[j] = w[j]) (m : Words16)
    (r : Fin 10) : gOperands m v r g = gOperands m w r g := by
  simp only [quadIndices, List.forall_mem_cons] at h
  obtain ⟨ha, hb, hc, hd, -⟩ := h
  simp only [gOperands, ha, hb, hc, hd]

/-! ### The G calls of a group -/

section Group

variable {g g' : Fin 8} (hd : (quadIndices g).Disjoint (quadIndices g'))
include hd

/-- A G call reads nothing that a G call of a disjoint quadruple wrote (R129). -/
theorem gOperands_writeQuad (m v : Words16) (r : Fin 10) (x : GRegs) :
    gOperands m (writeQuad v g x) r g' = gOperands m v r g' :=
  gOperands_congr (fun _ hj => getElem_writeQuad_of_not_mem (fun h => hd h hj) v x) m r

/-- Writes of disjoint quadruples commute (R129): a word outside the one is as the other left it. -/
theorem writeQuad_comm (v : Words16) (x y : GRegs) :
    writeQuad (writeQuad v g x) g' y = writeQuad (writeQuad v g' y) g x := by
  refine words16_ext fun j => ?_
  by_cases hj : j ∈ quadIndices g
  · rw [getElem_writeQuad_of_not_mem (hd hj), getElem_writeQuad_of_mem hj]
  · rw [getElem_writeQuad_of_not_mem hj]
    by_cases hj' : j ∈ quadIndices g'
    · exact getElem_writeQuad_of_mem hj' _ _ y
    · simp only [getElem_writeQuad_of_not_mem hj, getElem_writeQuad_of_not_mem hj']

/-- Steps of disjoint quadruples commute (R129). -/
theorem gstepV_comm (m v : Words16) (r : Fin 10) :
    gstepV m r (gstepV m r v g) g' = gstepV m r (gstepV m r v g') g := by
  simp only [gstepV, gOperands_writeQuad hd, gOperands_writeQuad hd.symm, writeQuad_comm hd]

end Group

/-- Any order of steps with disjoint quadruples gives the same `v` (R129). -/
theorem foldl_gstepV_perm {gs gs' : List (Fin 8)} (hd : DisjointQuads gs) (hp : gs'.Perm gs) (m v : Words16)
    (r : Fin 10) : gs'.foldl (gstepV m r) v = gs.foldl (gstepV m r) v := by
  refine (hp.symm.foldl_eq' (fun g hg g' hg' w => ?_) v).symm
  obtain rfl | hne := eq_or_ne g g'
  · rfl
  · have hsymm : Std.Symm fun g g' : Fin 8 => (quadIndices g).Disjoint (quadIndices g') := ⟨fun _ _ h => h.symm⟩
    exact gstepV_comm (List.Pairwise.forall hd hg hg' hne) m w r

/-- Settles O34, by `foldl_gstepV_perm`. -/
theorem stepsOfAGroupCommute : Obligations.StepsOfAGroupCommute := fun m v r _ =>
  ⟨fun hp => foldl_gstepV_perm disjointQuads_columns hp m v r,
    fun hp => foldl_gstepV_perm disjointQuads_diagonals hp m v r⟩

/-- Results computed from `v` and written one after another to `w` are those of the sequential steps from `w`, while `w`
still holds what `v` held at every quadruple to come (R129). -/
theorem lanes_foldl_eq {gs : List (Fin 8)} (hd : DisjointQuads gs) {m v w : Words16} {r : Fin 10}
    (hw : ∀ g ∈ gs, gOperands m v r g = gOperands m w r g) :
    gs.foldl (fun w g => writeQuad w g (mixG (gOperands m v r g))) w = gs.foldl (gstepV m r) w := by
  induction gs generalizing w with
  | nil => rfl
  | cons g gs ih =>
    obtain ⟨hg, hgs⟩ := List.pairwise_cons.mp hd
    have hfirst : writeQuad w g (mixG (gOperands m v r g)) = gstepV m r w g := by
      rw [hw g List.mem_cons_self, gstepV]
    rw [List.foldl_cons, List.foldl_cons, hfirst]
    refine ih hgs fun g' hg' => ?_
    rw [hw g' (List.mem_cons_of_mem g hg'), gstepV, gOperands_writeQuad (hg g' hg')]

/-- Lanes side by side give the sequential `v` (R129, R131). -/
theorem groupInLanes_eq_foldl {gs : List (Fin 8)} (hd : DisjointQuads gs) (m v : Words16) (r : Fin 10) :
    groupInLanes m r gs v = gs.foldl (gstepV m r) v :=
  lanes_foldl_eq hd fun _ _ => rfl

/-- Settles O35, by `groupInLanes_eq_foldl`. -/
theorem lanesGiveTheSequentialResult : Obligations.LanesGiveTheSequentialResult := fun m v r =>
  ⟨groupInLanes_eq_foldl disjointQuads_columns m v r, groupInLanes_eq_foldl disjointQuads_diagonals m v r⟩

end Sys2Proof.Machine
end

section
/-! SUPPORT. GSTEP and ROUND as instructions (R123, R124), and the step words of a busy unit: one step word with the
snapshots that fall on it, the eight of a round, the eighty of a compression (R126, R139). -/

namespace Sys2Proof.Machine

/-! ### GSTEP and ROUND -/

theorem exec_gstep (r : Fin 10) (g : Fin 8) (s : State) : exec (.gstep r g) s = .next (gstepOp r g s) := rfl

theorem exec_round (r : Fin 10) (s : State) : exec (.round r) s = .next (roundOp r s) := rfl

/-- Settles O32: `gstepOp` writes its quadruple by `writeQuad`. -/
theorem gstepMixesItsQuadruple : Obligations.GstepMixesItsQuadruple := by
  intro s r g ia ib ic id hq
  have hoperands : gOperands s.scratch.m s.scratch.v r g =
      { a := s.scratch.v[ia], b := s.scratch.v[ib], c := s.scratch.v[ic], d := s.scratch.v[id],
        m0 := s.scratch.m[SIGMA[r][2 * g.val]], m1 := s.scratch.m[SIGMA[r][2 * g.val + 1]] } := by
    simp only [gOperands, hq]
  dsimp only
  rw [← hoperands]
  obtain ⟨ha, hb, hc, hd⟩ := getElem_writeQuad_own hq s.scratch.v (mixG (gOperands s.scratch.m s.scratch.v r g))
  refine ⟨gstepOp r g s, exec_gstep r g s, ha, hb, hc, hd, fun j hja hjb hjc hjd => ?_, rfl⟩
  have hj : j ∉ quadIndices g := by simp only [mem_quadIndices, hq, hja, hjb, hjc, hjd, or_self, not_false_eq_true]
  exact getElem_writeQuad_of_not_mem hj _ _

/-- GSTEPs one after another. -/
theorem execAll_gsteps (r : Fin 10) (gs : List (Fin 8)) (s : State) :
    execAll (gs.map (Instr.gstep r)) s = .next (gs.foldl (fun s g => gstepOp r g s) s) := by
  induction gs generalizing s with
  | nil => rfl
  | cons g gs ih => exact ih (gstepOp r g s)

theorem gstepOp_withTrace (r : Fin 10) (g : Fin 8) (s : State) (log : List TraceEvent) :
    gstepOp r g { s with trace := log } =
      { gstepOp r g s with
        trace := if s.traceEn then log ++ gstepEvents s.blk s.scratch.m r [g] s.scratch.v else log } := rfl

/-- The G steps do not read the trace log: from another log they reach the same state, with their events at its end. -/
theorem gsteps_withTrace (r : Fin 10) (gs : List (Fin 8)) (s : State) (log : List TraceEvent) :
    gs.foldl (fun s g => gstepOp r g s) { s with trace := log } =
      { gs.foldl (fun s g => gstepOp r g s) s with
        trace := if s.traceEn then log ++ gstepEvents s.blk s.scratch.m r gs s.scratch.v else log } := by
  induction gs generalizing s log with
  | nil => simp [gstepEvents]
  | cons g gs ih =>
    have hen : (gstepOp r g s).traceEn = s.traceEn := by rw [gstepOp_outside r g s]
    have hblk : (gstepOp r g s).blk = s.blk := by rw [gstepOp_outside r g s]
    rw [List.foldl_cons, gstepOp_withTrace, ih, hen, hblk, gstepOp_scratch_m, gstepOp_scratch_v, List.foldl_cons]
    cases s.traceEn <;> simp [gstepEvents]

/-- Settles O33: the eight steps from the log of the first snapshot, by `gsteps_withTrace`. -/
theorem roundIsItsEightGsteps : Obligations.RoundIsItsEightGsteps := by
  intro s r
  have hsteps := execAll_gsteps r gOrder { s with trace := [] }
  rw [gsteps_withTrace] at hsteps
  refine ⟨_, hsteps, ?_⟩
  have hpre : emitRoundPre r s = { s with trace := (emitRoundPre r s).trace } := rfl
  rw [exec_round, roundOp, hpre, gsteps_withTrace]
  have hout := gsteps_outside r gOrder s
  generalize gOrder.foldl (fun s g => gstepOp r g s) s = t at *
  rw [hout]
  cases h : s.traceEn <;> simp [h, emitRoundPre, emitRoundPost, emit]

/-! ### One step word -/

/-- An event emitted under a condition. -/
theorem ite_emit (p : Prop) [Decidable p] (ev : TraceEvent) (s : State) :
    (if p then emit ev s else s) =
      { s with trace := if p ∧ s.traceEn = true then s.trace ++ [ev] else s.trace } := by
  by_cases hp : p <;> simp [hp, emit]

/-- Step word `(r, g)` with the snapshot of the round that begins or ends with it (R144). -/
def stepWordOp (s : State) (w : Fin 10 × Fin 8) : State :=
  let t := gstepOp w.1 w.2 (if w.2 = 0 then emitRoundPre w.1 s else s)
  if w.2 = 7 then emitRoundPost w.1 t else t

/-- The step word that a unit holds (R28). -/
def State.stepWord (s : State) : Fin 10 × Fin 8 := (s.scratch.r, s.scratch.g)

/-- The step word after a given one (R126). -/
def nextStepWord (w : Fin 10 × Fin 8) : Fin 10 × Fin 8 := (if w.2 = 7 then w.1 + 1 else w.1, w.2 + 1)

theorem advanceStepWord_stepWord (s : State) : (advanceStepWord s).stepWord = nextStepWord s.stepWord := rfl

theorem stepWordOp_outside (s : State) (w : Fin 10 × Fin 8) : SameOutsideRounds s (stepWordOp s w) := by
  have hstep : SameOutsideRounds s (gstepOp w.1 w.2 (if w.2 = 0 then emitRoundPre w.1 s else s)) := by
    split
    · exact (emit_outside _ s).trans (gstepOp_outside _ _ _)
    · exact gstepOp_outside _ _ s
  unfold stepWordOp
  dsimp only
  split
  · exact hstep.trans (emit_outside _ _)
  · exact hstep

/-- A step word is left in `r` and `g` by its GSTEP (R28). -/
theorem stepWordOp_stepWord (s : State) (w : Fin 10 × Fin 8) : (stepWordOp s w).stepWord = w := by
  unfold stepWordOp
  dsimp only
  split <;> rfl

/-- `stepWordOp` with the log written out (R144). -/
theorem stepWordOp_eq (s : State) (r : Fin 10) (g : Fin 8) :
    stepWordOp s (r, g) =
      let t := gstepOp r g { s with
        trace := if g = 0 ∧ s.traceEn = true then s.trace ++ [.roundPre s.blk r s.scratch.v s.scratch.m]
                 else s.trace }
      { t with
        trace := if g = 7 ∧ s.traceEn = true then t.trace ++ [.roundPost s.blk r t.scratch.v t.scratch.m]
                 else t.trace } := by
  simp only [stepWordOp, emitRoundPre, emitRoundPost, ite_emit]
  rfl

/-- The step of a busy unit (R126), while nothing or a command is presented (R100, R235). -/
theorem step_busy {s : State} (hr : s.ready = false) (hh : s.host = [] ∨ ∃ w rest, s.host = .command w :: rest) :
    step s = .next
      (if s.stepWord = (9, 7) then endCompression (stepWordOp s s.stepWord)
        else advanceStepWord (stepWordOp s s.stepWord)) := by
  have hbusy : step s = busyStep s := by
    obtain hh | ⟨w, rest, hh⟩ := hh <;> simp [step, hh, hr]
  rw [hbusy, busyStep, exec_gstep, andThen_next, afterStepWord]
  simp only [State.stepWord, Prod.mk.injEq]
  rfl

/-- Settles O7: `step_busy`, with the snapshots of `stepWordOp` written out. -/
theorem busyStepRunsItsStepWord : Obligations.BusyStepRunsItsStepWord := by
  intro s hr hh
  dsimp only
  rw [step_busy hr hh, State.stepWord, stepWordOp_eq]
  refine ⟨_, exec_gstep _ _ _, fun hmore => ?_, fun hlast => ?_⟩
  · exact congrArg _ (if_neg (by rwa [Prod.mk.injEq, not_and_or]))
  · exact congrArg _ (if_pos (Prod.ext hlast.1 hlast.2))

/-! ### The eighty step words of a compression -/

/-- The step words in the order they run, 0 to 79 (R90, R126). -/
def stepWords : List (Fin 10 × Fin 8) := roundOrder.flatMap fun r => gOrder.map fun g => (r, g)

theorem stepWords_chain : stepWords.IsChain fun w w' => w ≠ (9, 7) ∧ w' = nextStepWord w := by
  decide +kernel

/-- A round is its eight step words, its snapshots included (R124, R144). -/
theorem roundOp_eq_stepWords (r : Fin 10) (s : State) :
    roundOp r s = gOrder.foldl (fun s g => stepWordOp s (r, g)) s := rfl

/-- The rounds of a compression are its eighty step words (R139). -/
theorem runRounds_eq_stepWords (s : State) : runRounds s = stepWords.foldl stepWordOp s := by
  simp only [runRounds, roundOp_eq_stepWords, stepWords, List.foldl_flatMap, List.foldl_map]

/-- A step word reads neither `r` nor `g`, and writes both (R28). -/
theorem stepWordOp_advanceStepWord (s : State) (w : Fin 10 × Fin 8) :
    stepWordOp (advanceStepWord s) w = stepWordOp s w := by
  by_cases h : w.2 = 0 <;> simp only [stepWordOp, h, if_true, if_false] <;> rfl

theorem core_run_succ {k : Nat} {s t : State} (h : step s = .next t) :
    Sys2Proof.core.run (k + 1) s = Sys2Proof.core.run k t := by
  have h' : Sys2Proof.core.step s = .next t := h
  simp only [Host.Core.run, h']

/-- A unit at the first of consecutive step words, of which only the end is word 79, runs them one at a time and ends its
command there (R126). -/
theorem run_stepWords {ws : List (Fin 10 × Fin 8)} {w : Fin 10 × Fin 8} {s : State}
    (hchain : (w :: ws).IsChain fun w w' => w ≠ (9, 7) ∧ w' = nextStepWord w)
    (hlast : (w :: ws).getLast? = some (9, 7)) (hr : s.ready = false) (hh : s.host = []) (hw : s.stepWord = w) :
    Sys2Proof.core.run (w :: ws).length s = .next (endCompression ((w :: ws).foldl stepWordOp s)) := by
  induction ws generalizing w s with
  | nil =>
    obtain rfl : w = (9, 7) := by simpa using hlast
    have hstep := step_busy hr (.inl hh)
    rw [hw, if_pos rfl] at hstep
    exact core_run_succ hstep
  | cons w' ws ih =>
    obtain ⟨⟨hmore, rfl⟩, hchain⟩ := List.isChain_cons_cons.mp hchain
    have hstep := step_busy hr (.inl hh)
    rw [hw, if_neg hmore] at hstep
    have hout := (stepWordOp_outside s w).trans (advanceStepWord_outside _)
    have hnext : (advanceStepWord (stepWordOp s w)).stepWord = nextStepWord w := by
      rw [advanceStepWord_stepWord, stepWordOp_stepWord]
    calc Sys2Proof.core.run (w :: nextStepWord w :: ws).length s
        = Sys2Proof.core.run (nextStepWord w :: ws).length (advanceStepWord (stepWordOp s w)) := core_run_succ hstep
      _ = .next (endCompression ((nextStepWord w :: ws).foldl stepWordOp (advanceStepWord (stepWordOp s w)))) :=
        ih hchain hlast (by rw [hout, hr]) (by rw [hout, hh]) hnext
      _ = .next (endCompression ((w :: nextStepWord w :: ws).foldl stepWordOp s)) := by
        rw [List.foldl_cons, stepWordOp_advanceStepWord, List.foldl_cons, List.foldl_cons]

/-- A compression is its eighty steps (R126, R139). -/
theorem run_beginCompression {s : State} (hh : s.host = []) (keep : Nat) (final : Bool) :
    Sys2Proof.core.run 80 (beginCompression keep final s) = .next (absorb keep final s) := by
  rw [absorb, runRounds_eq_stepWords]
  exact run_stepWords stepWords_chain rfl rfl hh rfl

/-- Settles O50, by `run_beginCompression`. -/
theorem atomicCommandIsEightyStepWords : Obligations.AtomicCommandIsEightyStepWords := by
  intro s hh hp
  refine ⟨⟨absorb 64 false s, ?_, run_beginCompression hh 64 false⟩,
    fun len hlen => ⟨absorb len.toNat true s, ?_, run_beginCompression hh len.toNat true⟩⟩
  · rw [exec_command rfl, commandNext_of_success (commandError_update_eq_none.mpr hp)]
    rfl
  · rw [exec_command rfl, commandNext_of_success (commandError_finish_eq_none.mpr ⟨by simpa using hlen, hp⟩)]
    rfl

end Sys2Proof.Machine
end

section
/-! SUPPORT. The compression function F on the state and as a pure function (R135 to R142): its working vector, its fold,
and F as its ten ROUNDs. -/

namespace Sys2Proof.Machine

/-! ### The working vector and the fold -/

/-- Steps 2 and 3 of F write words 12 to 14 only (R137, R138). -/
theorem buildV_getElem_of_lt (h : Words8) (t : BitVec 64) (final : Bool) {i : Nat} (hi : i < 12) :
    (buildV h t final)[i] = (h ++ IV)[i] := by
  have h12 : 12 ≠ i := by omega
  have h13 : 13 ≠ i := by omega
  have h14 : 14 ≠ i := by omega
  cases final <;> simp [buildV, h12, h13, h14]

/-- Before steps 2 and 3 of F, words 8 to 15 are `IV` (R136). -/
theorem append_IV_getElem (h : Words8) (i : Fin 8) : (h ++ IV : Words16)[8 + i.val] = IV[i] := by
  rw [Vector.getElem_append_right (by omega) (by omega)]
  congr 1
  omega

/-- Settles O36: words 0 to 11 are those of `h` and `IV`, and each of the others is such a word changed by its step. -/
theorem workingVectorIsBuilt : Obligations.WorkingVectorIsBuilt := by
  intro h t final
  refine ⟨fun i => ?_, fun i => ?_, ?_, ?_, ?_, ?_⟩
  · rw [buildV_getElem_of_lt h t final (by omega)]
    exact Vector.getElem_append_left i.isLt
  · rw [buildV_getElem_of_lt h t final (by omega)]
    exact append_IV_getElem h (i.castLE (by decide))
  · cases final <;> simpa [buildV, tLow] using append_IV_getElem h 4
  · cases final <;> simpa [buildV, tHigh] using append_IV_getElem h 5
  · cases final <;> simpa [buildV] using append_IV_getElem h 6
  · cases final <;> simpa [buildV] using append_IV_getElem h 7

/-- Settles O37: a word of `foldBack`. -/
theorem foldBackXorsBothHalves : Obligations.FoldBackXorsBothHalves := fun _ _ _ _ i => Vector.getElem_ofFn i.isLt

/-! ### F on the state -/

theorem exec_f (final : Bool) (s : State) : exec (.f final) s = .next (fOp final s) := rfl

/-- The last step word of a compression is left in `r` and `g` (R28, R139). -/
theorem runRounds_stepWord (s : State) : (runRounds s).stepWord = (9, 7) := by
  rw [runRounds_eq_stepWords]
  exact stepWordOp_stepWord _ (9, 7)

/-- A state within the frame of the rounds is given by its scratch registers and its trace log. -/
theorem SameOutsideRounds.eq_of_scratch {s t : State} {v : Words16} {r : Fin 10} {g : Fin 8}
    (hout : SameOutsideRounds s t) (hword : t.stepWord = (r, g)) (hm : t.scratch.m = s.scratch.m)
    (hf : t.scratch.f = s.scratch.f) (hmicro : t.scratch.microResult = s.scratch.microResult) (hv : t.scratch.v = v) :
    t = { s with scratch := { s.scratch with v := v, r := r, g := g, gregs := t.scratch.gregs }, trace := t.trace } := by
  obtain ⟨rfl, rfl⟩ := Prod.mk.inj hword
  subst hv
  dsimp only
  rw [← hm, ← hf, ← hmicro]
  exact hout

/-- What the ten rounds write: `v`, the G registers, `r`, `g` and the trace log (R134, R139). -/
theorem runRounds_eq (s : State) :
    runRounds s =
      { s with
        scratch := { s.scratch with
          v := roundsV s.scratch.m s.scratch.v, r := 9, g := 7, gregs := (runRounds s).scratch.gregs }
        trace := (runRounds s).trace } := by
  obtain ⟨hm, hf, hmicro, hv⟩ := runRounds_scratch s
  exact (runRounds_outside s).eq_of_scratch (runRounds_stepWord s) hm hf hmicro hv

/-- What F writes: `h`, by the pure function, and what the rounds write (R141, R142). -/
theorem fOp_eq (final : Bool) (s : State) :
    fOp final s =
      { s with
        h := F s.h s.scratch.m s.t final
        scratch := { s.scratch with
          v := roundsV s.scratch.m (buildV s.h s.t final), f := final, r := 9, g := 7,
          gregs := (fOp final s).scratch.gregs }
        trace := (fOp final s).trace } := by
  have hrounds := runRounds_eq (enterF final s)
  unfold fOp
  generalize runRounds (enterF final s) = u at *
  rw [hrounds]
  rfl

/-- Without tracing F emits nothing (R214). -/
theorem fOp_trace_of_traceEn {s : State} (hoff : s.traceEn = false) (final : Bool) : (fOp final s).trace = s.trace := by
  rw [fOp, foldH_trace, runRounds_trace, enterF_traceEn, hoff, enterF_trace]
  rfl

/-- Settles O38, by `fOp_eq`. -/
theorem fInstructionIsThePureF : Obligations.FInstructionIsThePureF := fun s final =>
  ⟨fOp final s, exec_f final s, fOp_eq final s, fun hoff => fOp_trace_of_traceEn hoff final⟩

/-- ROUNDs one after another. -/
theorem execAll_rounds (rs : List (Fin 10)) (s : State) :
    execAll (rs.map Instr.round) s = .next (rs.foldl (fun s r => roundOp r s) s) := by
  induction rs generalizing s with
  | nil => rfl
  | cons r rs ih => rw [List.map_cons, execAll, exec_round, andThen_next, ih, List.foldl_cons]

/-- Settles O39: the rounds leave `h` as it was, so the fold is with the `h` of the start. -/
theorem fIsItsTenRounds : Obligations.FIsItsTenRounds := by
  intro s final
  refine ⟨runRounds (enterF final s), execAll_rounds roundOrder (enterF final s), ?_⟩
  have hh : (runRounds (enterF final s)).h = s.h := by rw [runRounds_outside (enterF final s), enterF_h]
  rw [exec_f, fOp, foldH, hh]

end Sys2Proof.Machine
end

section
/-! SUPPORT. The trace of a compression (R144, R145): the keys of its events in order, and its round snapshots at their
places in the log. -/

namespace Sys2Proof.Machine

/-! ### UPDATE and FINISH as one compression -/

theorem exec_update {s : State} (hp : s.phase = .absorbing) : exec .update s = .next (absorb 64 false s) := by
  rw [exec_command rfl, commandNext_of_success (commandError_update_eq_none.mpr hp), commandResult]

theorem exec_finish {s : State} {len : BitVec 7} (hlen : len ≤ 64) (hp : s.phase = .absorbing) :
    exec (.finish len) s = .next (absorb len.toNat true s) := by
  have hok := commandError_finish_eq_none.mpr ⟨BitVec.not_lt.mpr hlen, hp⟩
  rw [exec_command rfl, commandNext_of_success hok, commandResult]

/-! ### The keys -/

/-- The keys of the events of round `r` (R145). -/
def roundKeys (blk : BitVec 64) (r : Fin 10) : List (BitVec 2 × BitVec 64 × BitVec 4 × Option (BitVec 3)) :=
  (0, blk, BitVec.ofNat 4 r.val, none) ::
    (gOrder.map (fun g => (1, blk, BitVec.ofNat 4 r.val, some (BitVec.ofNat 3 g.val))) ++
      [(2, blk, BitVec.ofNat 4 r.val, none)])

theorem compressionKeys_eq (blk : BitVec 64) : compressionKeys blk = roundOrder.flatMap (roundKeys blk) := rfl

theorem gstepEvents_keys (blk : BitVec 64) (m : Words16) (r : Fin 10) (gs : List (Fin 8)) (v : Words16) :
    (gstepEvents blk m r gs v).map TraceEvent.key =
      gs.map fun g => (1, blk, BitVec.ofNat 4 r.val, some (BitVec.ofNat 3 g.val)) := by
  induction gs generalizing v with
  | nil => rfl
  | cons g gs ih => exact congrArg _ (ih (gstepV m r v g))

theorem roundEvents_keys (blk : BitVec 64) (m : Words16) (r : Fin 10) (v : Words16) :
    (roundEvents blk m r v).map TraceEvent.key = roundKeys blk r := by
  rw [roundEvents, List.map_cons, List.map_append, gstepEvents_keys]
  rfl

theorem roundsEvents_keys (blk : BitVec 64) (m : Words16) (rs : List (Fin 10)) (v : Words16) :
    (roundsEvents blk m rs v).map TraceEvent.key = rs.flatMap (roundKeys blk) := by
  induction rs generalizing v with
  | nil => rfl
  | cons r rs ih => rw [roundsEvents, List.map_append, roundEvents_keys, ih, List.flatMap_cons]

/-- Settles O42: the events of `absorb_trace`, by `roundsEvents_length` and `roundsEvents_keys`. -/
theorem compressionEmitsOneHundredEvents : Obligations.CompressionEmitsOneHundredEvents := by
  intro s i hi hp hen
  obtain ⟨keep, final, hexec⟩ : ∃ keep final, exec i s = .next (absorb keep final s) := by
    obtain rfl | ⟨len, hlen, rfl⟩ := hi
    · exact ⟨_, _, exec_update hp⟩
    · exact ⟨_, _, exec_finish hlen hp⟩
  exact ⟨_, _, hexec, by rw [absorb_trace, if_pos hen], roundsEvents_length _ _ _ _, roundsEvents_keys _ _ _ _⟩

/-! ### The round snapshots -/

/-- The working vector after the first `k` rounds. -/
def vAfterRounds (m v : Words16) (k : Nat) : Words16 := (roundOrder.take k).foldl (roundV m) v

theorem roundOrder_getElem? : ∀ r : Fin 10, roundOrder[r.val]? = some r := by decide

theorem vAfterRounds_succ (m v : Words16) (r : Fin 10) :
    vAfterRounds m v (r.val + 1) = roundV m (vAfterRounds m v r.val) r := by
  rw [vAfterRounds, List.take_add_one, roundOrder_getElem?, List.foldl_append, Option.toList_some, List.foldl_cons,
    List.foldl_nil, ← vAfterRounds]

/-- Event `j` of round `k` of a list stands at place `10 k + j`, and shows the working vector that the rounds before it
have left. -/
theorem roundsEvents_getElem? {blk : BitVec 64} {m : Words16} {rs : List (Fin 10)} {k : Nat} {r : Fin 10}
    (hr : rs[k]? = some r) {j : Nat} (hj : j < 10) (v : Words16) :
    (roundsEvents blk m rs v)[10 * k + j]? = (roundEvents blk m r ((rs.take k).foldl (roundV m) v))[j]? := by
  induction rs generalizing k v with
  | nil => simp at hr
  | cons r' rs ih =>
    rw [roundsEvents]
    cases k with
    | zero =>
      obtain rfl : r' = r := by simpa using hr
      rw [List.getElem?_append_left (by rw [roundEvents_length]; omega), Nat.mul_zero, Nat.zero_add]
      rfl
    | succ k =>
      rw [List.getElem?_append_right (by rw [roundEvents_length]; omega), roundEvents_length,
        show 10 * (k + 1) + j - 10 = 10 * k + j by omega]
      rw [List.take_succ_cons, List.foldl_cons]
      exact ih (by simpa using hr) (roundV m v r')

/-- The events of a compression at the places of its round snapshots (R144). -/
theorem roundsEvents_snapshots (blk : BitVec 64) (m v : Words16) (r : Fin 10) :
    (roundsEvents blk m roundOrder v)[10 * r.val]? = some (.roundPre blk r (vAfterRounds m v r.val) m) ∧
      (roundsEvents blk m roundOrder v)[10 * r.val + 9]? =
        some (.roundPost blk r (vAfterRounds m v (r.val + 1)) m) := by
  have hplace {j : Nat} (hj : j < 10) := roundsEvents_getElem? (blk := blk) (m := m) (roundOrder_getElem? r) hj v
  rw [vAfterRounds_succ]
  exact ⟨hplace (j := 0) (by decide), hplace (j := 9) (by decide)⟩

/-- With TRACE_EN = 1 the events of a compression stand in the log after what it held (R38, R214). -/
theorem absorb_trace_getElem? {s : State} (hen : s.traceEn = true) (keep : Nat) (final : Bool) (n : Nat) :
    (absorb keep final s).trace[s.trace.length + n]? =
      (roundsEvents s.blk (loadBlock keep s.block) roundOrder
        (buildV s.h (add64 s.t (BitVec.ofNat 64 keep)) final))[n]? := by
  rw [absorb_trace, if_pos hen, List.getElem?_append_right (Nat.le_add_right _ _), Nat.add_sub_cancel_left]

/-- Settles O43, by `roundsEvents_snapshots`; the `v` after all ten rounds is the one that F folds. -/
theorem roundSnapshotsChain : Obligations.RoundSnapshotsChain := by
  intro s i keep final hp hen hi
  have hexec : exec i s = .next (absorb keep final s) := by
    obtain ⟨rfl, rfl, rfl⟩ | ⟨len, hlen, rfl, rfl, rfl⟩ := hi
    · exact exec_update hp
    · exact exec_finish hlen hp
  let v₀ := buildV s.h (add64 s.t (BitVec.ofNat 64 keep)) final
  refine ⟨absorb keep final s, fun k => vAfterRounds (loadBlock keep s.block) v₀ k.val, hexec, rfl,
    absorb_h keep final s, fun r => ?_⟩
  rw [Nat.add_assoc, absorb_trace_getElem? hen, absorb_trace_getElem? hen]
  exact roundsEvents_snapshots s.blk _ v₀ r

end Sys2Proof.Machine
end

section
/-! SUPPORT. The session that INIT builds (R150 to R164). -/

namespace Sys2Proof.Machine

theorem configLegal_eq_true {nn kk : BitVec 6} : configLegal nn kk = true ↔ nn ≠ 0 ∧ nn ≤ 32 ∧ kk ≤ 32 := by
  rw [configLegal, decide_eq_true_iff]

theorem configLegal_eq_false {nn kk : BitVec 6} : configLegal nn kk = false ↔ nn = 0 ∨ 32 < nn ∨ 32 < kk := by
  rw [← Bool.not_eq_true, configLegal_eq_true, not_and_or, not_and_or, not_not, BitVec.not_le, BitVec.not_le]

theorem exec_init_of_legal {nn kk : BitVec 6} (h : configLegal nn kk = true) (s : State) :
    exec (.init nn kk) s = .next (respondOk (newSession nn kk s)) := by
  rw [exec_command rfl, commandNext_of_success (commandError_init_eq_none.mpr h), commandResult]

theorem exec_init_of_illegal {nn kk : BitVec 6} (h : configLegal nn kk = false) (s : State) :
    exec (.init nn kk) s = .next (raiseError .config s) := by
  rw [exec_command rfl, commandNext_of_error (e := .config) (by simp [commandError, h])]

theorem raiseError_config (s : State) :
    raiseError .config s = { s with resp := .configError, fault := s.fault ||| 0b001 } := rfl

theorem initialH_getElem_zero (nn kk : BitVec 6) : (initialH nn kk)[0] = IV[0] ^^^ h0 nn kk :=
  Vector.getElem_set_self _

theorem initialH_getElem_of_ne_zero (nn kk : BitVec 6) {i : Fin 8} (hi : i ≠ 0) : (initialH nn kk)[i] = IV[i] :=
  Vector.getElem_set_ne _ _ fun h => hi (Fin.ext h.symm)

/-- Settles O12: the two conditions on the operands are `configLegal` and its negation, and of the words of `IV` only
word 0 is set. -/
theorem initBuildsSessionOrRaisesConfigError : Obligations.InitBuildsSessionOrRaisesConfigError := by
  intro s nn kk
  constructor
  · intro hlegal
    exact ⟨_, exec_init_of_legal (configLegal_eq_true.mpr hlegal) s, rfl, initialH_getElem_zero nn kk,
      fun _ hi => initialH_getElem_of_ne_zero nn kk hi⟩
  · intro hillegal
    rw [exec_init_of_illegal (configLegal_eq_false.mpr hillegal), raiseError_config]

end Sys2Proof.Machine
end

section
/-! SUPPORT. The commands of the sequencer (R165 to R179): NOP and TRACE, the counter addition, UPDATE and FINISH with
their errors, the transition table. -/

namespace Sys2Proof.Machine

/-! ### NOP and TRACE -/

theorem exec_nop (s : State) : exec .nop s = .next (respondOk s) := rfl

theorem exec_trace (en : Bool) (s : State) : exec (.trace en) s = .next (respondOk { s with traceEn := en }) := rfl

/-- Settles O10: `exec_nop`, and `respondOk` writes RESP only. -/
theorem nopOnlyResponds : Obligations.NopOnlyResponds := ⟨rfl, exec_nop⟩

/-- Settles O11: the words by `decode_traceWord`, the meaning by `exec_trace`. -/
theorem traceWritesItsEnable : Obligations.TraceWritesItsEnable :=
  ⟨decode_traceWord false, decode_traceWord true, fun s en => exec_trace en s⟩

/-! ### The counter -/

/-- `t` is the number that its two words write (R22). -/
theorem tHigh_tLow_toNat (t : BitVec 64) : (tHigh t).toNat * 2 ^ 32 + (tLow t).toNat = t.toNat := by
  rw [tHigh, tLow, toNat_extractLsb', toNat_extractLsb']
  omega

/-- Settles O41: both sides are the 64-bit sum, by `tHigh_tLow_toNat`. -/
theorem counterCarriesAndWraps : Obligations.CounterCarriesAndWraps := by
  intro t n hn
  dsimp only
  rw [tHigh_tLow_toNat, tHigh_tLow_toNat, add64, BitVec.toNat_add, BitVec.toNat_ofNat, Nat.mod_eq_of_lt hn]

/-! ### UPDATE and FINISH -/

/-- A compression with its counter as a sum and its events as a list at the end of the log: 100 of them if traced
(R145, R167, R169). -/
theorem absorb_eq_events (keep : Nat) (final : Bool) (s : State) :
    ∃ evs : List TraceEvent, evs.length = (if s.traceEn = true then 100 else 0) ∧
      absorb keep final s =
        { s with
          h := F s.h (loadBlock keep s.block) (s.t + BitVec.ofNat 64 keep) final, t := s.t + BitVec.ofNat 64 keep,
          blk := s.blk + 1, ready := true, resp := .ok, phase := if final then .finalized else s.phase,
          scratch := Config.unwrittenScratch s.free, free := s.free + 1, trace := s.trace ++ evs } := by
  rw [absorb_eq]
  cases hen : s.traceEn with
  | true => exact ⟨_, roundsEvents_length _ _ _ _, rfl⟩
  | false => exact ⟨[], rfl, by simp [add64]⟩

theorem raiseError_state (s : State) :
    raiseError .state s = { s with resp := .stateError, fault := s.fault ||| 0b010 } := rfl

theorem exec_update_of_phase_ne {s : State} (hp : s.phase ≠ .absorbing) :
    exec .update s = .next (raiseError .state s) := by
  rw [exec_command rfl, commandNext_of_error (e := .state) (by simp [commandError, hp])]

theorem exec_finish_of_phase_ne {s : State} {len : BitVec 7} (hlen : len ≤ 64) (hp : s.phase ≠ .absorbing) :
    exec (.finish len) s = .next (raiseError .state s) := by
  have hle : ¬ 64#7 < len := BitVec.not_lt.mpr hlen
  rw [exec_command rfl, commandNext_of_error (e := .state) (by simp [commandError, hle, hp])]

theorem exec_finish_of_len_gt {len : BitVec 7} (hlen : 64 < len) (s : State) :
    exec (.finish len) s = .next (raiseError .illegal s) := by
  have hgt : 64#7 < len := hlen
  rw [exec_command rfl, commandNext_of_error (e := .illegal) (by simp [commandError, hgt])]

/-- The word of a FINISH whose `len` is above 64 is reserved (R83 item 5). -/
theorem decode_finishWord_of_gt {len : BitVec 7} (hlen : 64 < len) :
    decode (finishWord len) = .error .finishLength := by
  have hop : opField (finishWord len) = 3 := field_eq_iff.mpr (by rw [finishWord_toNat]; bv_omega)
  have hfield : (finishWord len).extractLsb' 3 7 = len := field_eq_iff.mpr (by rw [finishWord_toNat]; omega)
  have hrest : (finishWord len).extractLsb' 10 6 = 0 := field_eq_iff.mpr (by rw [finishWord_toNat]; bv_omega)
  have hgt : ¬ len ≤ 64#7 := BitVec.not_le.mpr hlen
  rw [decode_of_op_finish hop, if_pos hrest, hfield, if_neg hgt]

/-- Settles O14: `absorb_eq_events` for a full block, `exec_update_of_phase_ne` elsewhere. -/
theorem updateAbsorbsFullBlock : Obligations.UpdateAbsorbsFullBlock := by
  refine ⟨rfl, fun s => ⟨fun hp => ?_, exec_update_of_phase_ne⟩⟩
  obtain ⟨evs, hlen, habsorb⟩ := absorb_eq_events 64 false s
  rw [loadBlock_full] at habsorb
  exact ⟨_, evs, exec_update hp, by rw [habsorb]; rfl, hlen⟩

theorem padBlock_getElem (keep : Nat) (b : Block) (k : Fin 64) :
    (padBlock keep b)[k] = if k.val < keep then b[k] else 0 := Vector.getElem_ofFn k.isLt

/-- Settles O15: `absorb_eq_events` for the block that `padBlock` gives; the errors by the phase and by `len`. -/
theorem finishAbsorbsFinalBlock : Obligations.FinishAbsorbsFinalBlock := by
  intro s len
  refine ⟨decode_finishWord, fun hp hlen => ?_, fun hp hlen => exec_finish_of_phase_ne hlen hp,
    fun hlen => ⟨⟨_, decode_finishWord_of_gt hlen⟩, exec_finish_of_len_gt hlen s⟩⟩
  obtain ⟨evs, hevents, habsorb⟩ := absorb_eq_events len.toNat true s
  rw [BitVec.ofNat_toNat] at habsorb
  exact ⟨_, padBlock len.toNat s.block, evs, exec_finish hlen hp, padBlock_getElem _ _, by rw [habsorb]; rfl, hevents⟩

/-- What is loaded is made of the bytes kept (R170). -/
theorem padBlock_congr {keep : Nat} {b b' : Block} (h : ∀ k : Fin 64, k.val < keep → b[k] = b'[k]) :
    padBlock keep b = padBlock keep b' := by
  refine congrArg Vector.ofFn (funext fun k => ?_)
  split
  · exact h k ‹_›
  · rfl

/-- A compression reads of BLK what it loads, and does not write BLK (R64, R178). -/
theorem absorb_of_loadBlock_eq {keep : Nat} {b b' : Block} (h : loadBlock keep b = loadBlock keep b') (final : Bool)
    (s : State) :
    absorb keep final { s with block := b' } = { absorb keep final { s with block := b } with block := b' } := by
  simp only [absorb_eq, h]

/-- Settles O16: in phase ABSORBING by `absorb_of_loadBlock_eq`; elsewhere the StateError reads no byte. -/
theorem finishIgnoresBytesBeyondLen : Obligations.FinishIgnoresBytesBeyondLen := by
  intro s len b b' hlen hbytes
  by_cases hp : s.phase = .absorbing
  · have hload : loadBlock len.toNat b = loadBlock len.toNat b' := congrArg blockWords (padBlock_congr hbytes)
    have hsame := absorb_of_loadBlock_eq (Eq.refl (loadBlock len.toNat b)) true s
    have hother := absorb_of_loadBlock_eq hload true s
    refine ⟨absorb len.toNat true { s with block := b }, ?_, ?_⟩
    · rw [← hsame]
      exact exec_finish hlen hp
    · rw [← hother]
      exact exec_finish hlen hp
  · exact ⟨raiseError .state s, exec_finish_of_phase_ne hlen hp, exec_finish_of_phase_ne hlen hp⟩

/-! ### The transition table -/

theorem configLegal_iff_toNat {nn kk : BitVec 6} :
    configLegal nn kk = true ↔ 1 ≤ nn.toNat ∧ nn.toNat ≤ 32 ∧ kk.toNat ≤ 32 := by
  rw [configLegal_eq_true]
  bv_omega

/-- The cells of R179 that answer an error: its code, and the phase as it was. -/
theorem transition_of_error {i : Instr} {p : Phase} {e : CmdError} (h : commandError p i = some e) :
    transition i p = (e.resp, p) := by
  cases i with
  | nop | trace => simp [commandError] at h
  | init nn kk =>
    have hillegal : ¬ configLegal nn kk = true := fun hc => by simp [commandError, hc] at h
    obtain rfl : CmdError.config = e := by simpa [commandError, hillegal] using h
    exact if_neg (mt configLegal_iff_toNat.mpr hillegal)
  | update => cases p <;> cases h <;> rfl
  | digest => cases p <;> cases h <;> rfl
  | finish len =>
    by_cases hlen : 64#7 < len
    · obtain rfl : CmdError.illegal = e := by simpa [commandError, hlen] using h
      have hle : ¬ len.toNat ≤ 64 := by bv_omega
      cases p <;> exact if_neg hle
    · have hle : len.toNat ≤ 64 := by bv_omega
      have hp : p ≠ .absorbing := by
        rintro rfl
        simp [commandError, hlen] at h
      obtain rfl : CmdError.state = e := by simpa [commandError, hlen, hp] using h
      cases p with
      | absorbing => exact absurd rfl hp
      | init | finalized => exact if_pos hle
  | reservedOp6 | reservedOp7 => cases h; rfl
  | gstep | add32 | xor32 | rotr | g | round | f | reset | hash => simp [commandError] at h

/-- The cells of R179 that answer OK. -/
theorem transition_of_success {i : Instr} (hi : i.isCommand = true) {s : State} (h : commandError s.phase i = none) :
    transition i s.phase = ((commandResult i s).resp, (commandResult i s).phase) := by
  cases i with
  | nop | trace => rfl
  | init nn kk => exact if_pos (configLegal_iff_toNat.mp (commandError_init_eq_none.mp h))
  | update =>
    have hp := commandError_update_eq_none.mp h
    simp [commandResult, transition, hp]
  | finish len =>
    obtain ⟨hlen, hp⟩ := commandError_finish_eq_none.mp h
    have hle : len.toNat ≤ 64 := by bv_omega
    simp [commandResult, transition, hp, hle]
  | digest =>
    have hp := commandError_digest_eq_none.mp h
    simp [commandResult, transition, hp]
  | reservedOp6 | reservedOp7 => simp [commandError] at h
  | gstep | add32 | xor32 | rotr | g | round | f | reset | hash => simp [Instr.isCommand] at hi

theorem commandNext_transition {i : Instr} (hi : i.isCommand = true) (s : State) :
    ((commandNext i s).resp, (commandNext i s).phase) = transition i s.phase := by
  cases he : commandError s.phase i with
  | some e => rw [commandNext_of_error he, transition_of_error he, raiseError_resp, raiseError_phase]
  | none => rw [commandNext_of_success he, transition_of_success hi he]

/-- Settles O22, by `commandNext_transition`; a word that does not decode raises IllegalCommand. -/
theorem transitionTable : Obligations.TransitionTable := by
  refine ⟨fun i s hi => ⟨_, exec_command hi s, commandNext_transition hi s⟩, fun w s => ?_⟩
  cases hdec : decode w with
  | ok i =>
    have hi := decode_isCommand hdec
    exact ⟨_, (execWord_of_decode_ok hdec s).trans (exec_command hi s), commandNext_transition hi s⟩
  | error e => exact ⟨raiseError .illegal s, by rw [execWord, hdec], rfl⟩

end Sys2Proof.Machine
end

section
/-! SUPPORT. HASH as its command sequence (R95, R181): the state it ends in, and the steps of its host actions. -/

namespace Sys2Proof.Machine

/-! ### The final block -/

/-- The number of the final block of a message (R181). -/
abbrev lastBlock (msg : List Byte) : Nat := hashBlocks msg.length - 1

theorem hashBlocks_eq_succ (msg : List Byte) : hashBlocks msg.length = lastBlock msg + 1 :=
  (Nat.sub_add_cancel (le_max_left _ _)).symm

theorem mul_lastBlock_le (msg : List Byte) : 64 * lastBlock msg ≤ msg.length := by
  rw [lastBlock, hashBlocks]
  omega

theorem length_sub_lastBlock_le (msg : List Byte) : msg.length - 64 * lastBlock msg ≤ 64 := by
  rw [lastBlock, hashBlocks]
  omega

theorem hashRem_toNat (msg : List Byte) : (hashRem msg).toNat = msg.length - 64 * lastBlock msg := by
  rw [hashRem, BitVec.toNat_ofNat]
  exact Nat.mod_eq_of_lt (Nat.lt_of_le_of_lt (length_sub_lastBlock_le msg) (by decide))

theorem hashRem_le (msg : List Byte) : hashRem msg ≤ 64#7 := by
  rw [BitVec.le_def, hashRem_toNat]
  exact length_sub_lastBlock_le msg

/-! ### The next state of HASH -/

/-- The next state of the host's write of block `j` of a message and the UPDATE after it (R181). -/
def hashBlockNext (msg : List Byte) (s : State) (j : Nat) : State :=
  commandNext .update (fillBlk (messageBlock msg j) s)

/-- The next state of HASH (R181). -/
def hashNext (nn kk : BitVec 6) (msg : List Byte) (s : State) : State :=
  let u := (List.range (lastBlock msg)).foldl (hashBlockNext msg) (commandNext (.init nn kk) s)
  commandNext .digest (commandNext (.finish (hashRem msg)) (fillBlk (messageBlock msg (lastBlock msg)) u))

theorem absorbBlocks_eq (msg : List Byte) (js : List Nat) (s : State) :
    absorbBlocks msg js s = .next (js.foldl (hashBlockNext msg) s) := by
  induction js generalizing s with
  | nil => rfl
  | cons j js ih =>
    have hupdate : execUpdate (fillBlk (messageBlock msg j) s) = .next (hashBlockNext msg s j) :=
      exec_command (i := .update) rfl _
    rw [absorbBlocks, hupdate, andThen_next, ih, List.foldl_cons]

/-- Every HASH has the next state `hashNext`. -/
theorem exec_hash (nn kk : BitVec 6) (msg : List Byte) (s : State) :
    exec (.hash nn kk msg) s = .next (hashNext nn kk msg s) := by
  have hinit : execInit nn kk s = .next (commandNext (.init nn kk) s) := exec_command (i := .init nn kk) rfl s
  have hfinish (u : State) : execFinish (hashRem msg) u = .next (commandNext (.finish (hashRem msg)) u) :=
    exec_command (i := .finish (hashRem msg)) rfl u
  show execHash nn kk msg s = _
  rw [execHash, hinit, andThen_next, absorbBlocks_eq, andThen_next, hfinish, andThen_next]
  exact exec_command (i := .digest) rfl _

/-! ### The host's list -/

/-- The state with other host actions still to come. -/
def State.withHost (l : List HostAction) (s : State) : State := { s with host := l }

@[simp] theorem withHost_host (l : List HostAction) (s : State) : (s.withHost l).host = l := rfl

theorem withHost_eq_self {l : List HostAction} {s : State} (h : s.host = l) : s.withHost l = s := by
  subst h
  rfl

/-- No command reads or writes the host's list. -/
theorem commandNext_withHost (i : Instr) (s : State) (l : List HostAction) :
    commandNext i (s.withHost l) = (commandNext i s).withHost l := by
  cases he : commandError s.phase i with
  | some e =>
    rw [commandNext_of_error he, commandNext_of_error (s := s.withHost l) he]
    rfl
  | none =>
    rw [commandNext_of_success he, commandNext_of_success (s := s.withHost l) he]
    cases i with
    | update | finish => simp only [commandResult, absorb_eq, State.withHost]
    | _ => rfl

theorem commandNext_host (i : Instr) (s : State) : (commandNext i s).host = s.host := by
  have hkept : commandNext i s = (commandNext i s).withHost s.host := commandNext_withHost i s s.host
  rw [hkept, withHost_host]

theorem HashRun.host {s t : State} (h : HashRun s t) : t.host = s.host := by
  induction h with
  | refl => rfl
  | tail _ hlink ih =>
    cases hlink with
    | fill bytes => exact (fillBlk_host _ bytes).trans ih
    | command => exact (commandNext_host _ _).trans ih

theorem hashNext_host (nn kk : BitVec 6) (msg : List Byte) (s : State) : (hashNext nn kk msg s).host = s.host :=
  (execHash_run (exec_hash nn kk msg s)).host

/-! ### The steps of a list of host actions -/

/-- The steps of the host actions `as` take a unit from state `s` to state `t`, whatever the host does next. -/
def Steps (as : List HostAction) (s t : State) : Prop :=
  ∀ (k : Nat) (rest : List HostAction),
    Sys2Proof.core.run (as.length + k) (s.withHost (as ++ rest)) = Sys2Proof.core.run k (t.withHost rest)

theorem Steps.nil (s : State) : Steps [] s s := fun k rest => by rw [List.length_nil, Nat.zero_add, List.nil_append]

theorem Steps.append {as bs : List HostAction} {s t u : State} (h : Steps as s t) (h' : Steps bs t u) :
    Steps (as ++ bs) s u := fun k rest => by
  rw [List.length_append, List.append_assoc, Nat.add_assoc, h, h']

/-- One action whose step has the next state `t`. -/
theorem Steps.single {a : HostAction} {s t : State}
    (h : ∀ rest, step (s.withHost (a :: rest)) = .next (t.withHost rest)) : Steps [a] s t := fun k rest => by
  rw [List.length_singleton, Nat.add_comm]
  exact core_run_succ (h rest)

theorem steps_fill (bytes : List Byte) (s : State) : Steps [.fill bytes] s (fillBlk bytes s) :=
  .single fun rest => by
    rw [step_fill (s := s.withHost _) rfl]
    simp only [fillBlk, State.withHost]

/-- A ready unit accepts the word of a command (R75). -/
theorem steps_command {s : State} {w : BitVec 16} {i : Instr} (hr : s.ready = true) (hdec : decode w = .ok i) :
    Steps [.command w] s (commandNext i s) := .single fun rest => by
  rw [step_command (s := s.withHost _) rfl hr, execWord_of_decode_ok hdec, exec_command (decode_isCommand hdec),
    ← commandNext_withHost]
  rfl

/-! ### HASH -/

theorem hashBlockNext_ready {s : State} (hr : s.ready = true) (msg : List Byte) (j : Nat) :
    (hashBlockNext msg s j).ready = true :=
  commandNext_ready ((fillBlk_ready s _).trans hr)

theorem hashBlocksNext_ready {s : State} (hr : s.ready = true) (msg : List Byte) (js : List Nat) :
    (js.foldl (hashBlockNext msg) s).ready = true := by
  induction js generalizing s with
  | nil => exact hr
  | cons j js ih => exact ih (hashBlockNext_ready hr msg j)

/-- The host's actions for the non-final blocks (R181). -/
theorem steps_hashBlocks {s : State} (hr : s.ready = true) (msg : List Byte) (js : List Nat) :
    Steps (js.flatMap fun j => [.fill (messageBlock msg j), .command 0x0002]) s (js.foldl (hashBlockNext msg) s) := by
  induction js generalizing s with
  | nil => exact .nil s
  | cons j js ih =>
    have hfill := steps_fill (messageBlock msg j) s
    have hupdate : Steps [.command 0x0002] _ (hashBlockNext msg s j) :=
      steps_command ((fillBlk_ready s _).trans hr) rfl
    exact (hfill.append hupdate).append (ih (hashBlockNext_ready hr msg j))

/-- The host's actions for the final block and the digest (R181). -/
theorem steps_hashFinal {s : State} (hr : s.ready = true) (msg bytes : List Byte) :
    Steps [.fill bytes, .command (finishWord (hashRem msg)), .command 0x0004] s
      (commandNext .digest (commandNext (.finish (hashRem msg)) (fillBlk bytes s))) := by
  have hfilled : (fillBlk bytes s).ready = true := (fillBlk_ready s bytes).trans hr
  have hfinish := steps_command hfilled (decode_finishWord (hashRem_le msg))
  have hdigest := steps_command (w := 0x0004) (commandNext_ready (i := .finish (hashRem msg)) hfilled) rfl
  exact (steps_fill bytes s).append (hfinish.append hdigest)

/-- The actions of HASH lead a ready unit to `hashNext`. -/
theorem steps_hashActions {s : State} (hr : s.ready = true) (nn kk : BitVec 6) (msg : List Byte) :
    Steps (hashActions nn kk msg) s (hashNext nn kk msg s) := by
  have hinit := steps_command hr (decode_initWord nn kk)
  have hopened : (commandNext (.init nn kk) s).ready = true := commandNext_ready hr
  have hblocks := steps_hashBlocks hopened msg (List.range (lastBlock msg))
  have habsorbed := hashBlocksNext_ready hopened msg (List.range (lastBlock msg))
  exact (hinit.append hblocks).append (steps_hashFinal habsorbed msg _)

/-- Settles O51, by `steps_hashActions`; in the end the host's list is what followed the actions. -/
theorem hashIsItsCommandSequence : Obligations.HashIsItsCommandSequence := by
  intro s nn kk msg rest hr
  have hhost : (hashNext nn kk msg (s.withHost rest)).host = rest := hashNext_host nn kk msg _
  refine ⟨hashNext nn kk msg (s.withHost rest), exec_hash nn kk msg _, ?_⟩
  calc Sys2Proof.core.run (hashActions nn kk msg).length (s.withHost (hashActions nn kk msg ++ rest))
      = .next ((hashNext nn kk msg (s.withHost rest)).withHost rest) :=
        steps_hashActions (s := s.withHost rest) hr nn kk msg 0 rest
    _ = .next (hashNext nn kk msg (s.withHost rest)) := by rw [withHost_eq_self hhost]

end Sys2Proof.Machine
end

section
/-! SUPPORT. HASH with legal lengths (R173, R174, R181): BLK, the hash state and the log block by block, and the digest of
the message. -/

namespace Sys2Proof.Machine

/-! ### The blocks of a message in BLK -/

theorem fillBlock_getElem (bytes : List Byte) (b : Block) (k : Fin 64) :
    (fillBlock bytes b)[k] = if h : k.val < bytes.length then bytes[k.val] else b[k] := Vector.getElem_ofFn k.isLt

theorem messageBlock_length (msg : List Byte) (j : Nat) :
    (messageBlock msg j).length = min 64 (msg.length - 64 * j) := by
  rw [messageBlock, List.length_take, List.length_drop]

/-- BLK after the host wrote block `j` of a message: the block's bytes, and the rest as it was (R181). -/
theorem fillBlock_messageBlock_getElem (msg : List Byte) (j : Nat) (b : Block) (k : Fin 64) :
    (fillBlock (messageBlock msg j) b)[k] =
      if 64 * j + k.val < msg.length then msg.getD (64 * j + k.val) 0 else b[k] := by
  have hlen : k.val < (messageBlock msg j).length ↔ 64 * j + k.val < msg.length := by
    rw [messageBlock_length]
    omega
  rw [fillBlock_getElem]
  by_cases h : 64 * j + k.val < msg.length
  · rw [dif_pos (hlen.mpr h), if_pos h]
    simp [messageBlock, h]
  · rw [dif_neg (mt hlen.mp h), if_neg h]

/-- A block loaded to just the bytes written is those bytes, zero from their end on (R170, R178). -/
theorem loadBlock_fillBlock (bytes : List Byte) (b : Block) :
    loadBlock bytes.length (fillBlock bytes b) = blockWords (zeroPadded bytes) := by
  refine congrArg blockWords (congrArg Vector.ofFn (funext fun k => ?_))
  rw [fillBlock_getElem]
  split <;> simp [*]

/-! ### The log -/

/-- From `s` to `u` the events of `n` compressions were appended to the log, if it is traced (R145). -/
def LoggedBlocks (s u : State) (n : Nat) : Prop :=
  ∃ evs : List TraceEvent, u.trace = s.trace ++ evs ∧ evs.length = if s.traceEn = true then 100 * n else 0

theorem LoggedBlocks.absorb {s u : State} {n : Nat} (h : LoggedBlocks s u n) (hen : u.traceEn = s.traceEn)
    (bytes : List Byte) (final : Bool) : LoggedBlocks s (absorb bytes.length final (fillBlk bytes u)) (n + 1) := by
  obtain ⟨evs, htrace, hlen⟩ := h
  obtain ⟨evs', hlen', habsorb⟩ := absorb_eq_events bytes.length final (fillBlk bytes u)
  rw [fillBlk_traceEn, hen] at hlen'
  refine ⟨evs ++ evs', ?_, ?_⟩
  · rw [habsorb, fillBlk_trace, htrace, List.append_assoc]
  · rw [List.length_append, hlen, hlen']
    split <;> omega

/-! ### The non-final blocks -/

/-- What HASH has reached in state `u`, after its INIT from state `s` and the first `n` blocks of its message. -/
structure HashProgress (nn kk : BitVec 6) (msg : List Byte) (s : State) (n : Nat) (u : State) : Prop where
  chain : u.h = chainBlocks msg n (initialH nn kk)
  counter : u.t = BitVec.ofNat 64 (64 * n)
  count : u.blk = BitVec.ofNat 64 n
  phase : u.phase = .absorbing
  lengths : u.nn = nn ∧ u.kk = kk
  fault : u.fault = s.fault
  traceEn : u.traceEn = s.traceEn
  log : LoggedBlocks s u n
  block : ∀ k : Fin 64, u.block[k] = if n = 0 then s.block[k] else msg.getD (64 * (n - 1) + k.val) 0

theorem hashProgress_init {nn kk : BitVec 6} (hlegal : configLegal nn kk = true) (msg : List Byte) (s : State) :
    HashProgress nn kk msg s 0 (commandNext (.init nn kk) s) := by
  rw [commandNext_of_success (commandError_init_eq_none.mpr hlegal)]
  exact ⟨rfl, rfl, rfl, rfl, ⟨rfl, rfl⟩, rfl, rfl, ⟨[], (List.append_nil _).symm, by simp⟩, fun _ => rfl⟩

theorem hashBlockNext_eq {s : State} (hp : s.phase = .absorbing) {msg : List Byte} {j : Nat}
    (hfull : (messageBlock msg j).length = 64) :
    hashBlockNext msg s j = absorb (messageBlock msg j).length false (fillBlk (messageBlock msg j) s) := by
  have hok := commandError_update_eq_none.mpr ((fillBlk_phase s (messageBlock msg j)).trans hp)
  rw [hashBlockNext, commandNext_of_success hok, commandResult, hfull]

/-- A full block takes HASH one block further (R167, R171). -/
theorem HashProgress.next {nn kk : BitVec 6} {msg : List Byte} {s u : State} {n : Nat}
    (h : HashProgress nn kk msg s n u) (hn : 64 * (n + 1) ≤ msg.length) :
    HashProgress nn kk msg s (n + 1) (hashBlockNext msg u n) := by
  have hfull : (messageBlock msg n).length = 64 := by rw [messageBlock_length]; omega
  have hcounter : BitVec.ofNat 64 (64 * n) + BitVec.ofNat 64 64 = BitVec.ofNat 64 (64 * (n + 1)) := by bv_omega
  rw [hashBlockNext_eq h.phase hfull]
  exact
    { chain := by
        rw [absorb_h, fillBlk_block, loadBlock_fillBlock, fillBlk_h, fillBlk_t, h.chain, h.counter, hfull, add64, hcounter,
          chainBlocks]
      counter := by rw [absorb_t, fillBlk_t, h.counter, hfull, add64, hcounter]
      count := by
        rw [absorb_blk, fillBlk_blk, h.count]
        bv_omega
      phase := by simp [h.phase]
      lengths := by simp [h.lengths]
      fault := by simp [h.fault]
      traceEn := by simp [h.traceEn]
      log := h.log.absorb h.traceEn _ _
      block := fun k => by
        rw [absorb_block, fillBlk_block, fillBlock_messageBlock_getElem, if_pos (by omega), if_neg (by omega),
          Nat.add_sub_cancel] }

theorem hashProgress_blocks {nn kk : BitVec 6} (hlegal : configLegal nn kk = true) {msg : List Byte} (s : State) {n : Nat}
    (hn : 64 * n ≤ msg.length) :
    HashProgress nn kk msg s n ((List.range n).foldl (hashBlockNext msg) (commandNext (.init nn kk) s)) := by
  induction n with
  | zero => exact hashProgress_init hlegal msg s
  | succ n ih =>
    rw [List.range_succ, List.foldl_append, List.foldl_cons, List.foldl_nil]
    exact (ih (by omega)).next hn

/-! ### The final block and the digest -/

theorem hashRem_toNat_eq_length (msg : List Byte) : (hashRem msg).toNat = (messageBlock msg (lastBlock msg)).length := by
  have hle := length_sub_lastBlock_le msg
  rw [messageBlock_length, hashRem_toNat]
  omega

/-- The state after the host's write of the final block and FINISH, in phase ABSORBING (R169, R181). -/
def hashFinal (msg : List Byte) (s : State) : State :=
  absorb (messageBlock msg (lastBlock msg)).length true (fillBlk (messageBlock msg (lastBlock msg)) s)

theorem hashFinish_eq {s : State} (hp : s.phase = .absorbing) (msg : List Byte) :
    commandNext (.finish (hashRem msg)) (fillBlk (messageBlock msg (lastBlock msg)) s) = hashFinal msg s := by
  have hfilled : (fillBlk (messageBlock msg (lastBlock msg)) s).phase = .absorbing := (fillBlk_phase s _).trans hp
  have hok := commandError_finish_eq_none.mpr ⟨BitVec.not_lt.mpr (hashRem_le msg), hfilled⟩
  rw [commandNext_of_success hok, commandResult, hashRem_toNat_eq_length, hashFinal]

theorem hashFinal_phase_ready (msg : List Byte) (s : State) :
    (hashFinal msg s).phase = .finalized ∧ (hashFinal msg s).ready = true :=
  ⟨absorb_phase _ true _, absorb_ready _ _ _⟩

theorem commandNext_digest {s : State} (hp : s.phase = .finalized) :
    commandNext .digest s = respondOk { s with dout := digestBytes s.h s.nn, dlen := s.nn, dvalid := true } := by
  rw [commandNext_of_success (commandError_digest_eq_none.mpr hp), commandResult]

section Final

variable {nn kk : BitVec 6} {msg : List Byte} {s u : State} (hu : HashProgress nn kk msg s (lastBlock msg) u)

include hu

theorem hashFinal_t : (hashFinal msg u).t = BitVec.ofNat 64 msg.length := by
  have hlen := hashRem_toNat msg
  have hle := mul_lastBlock_le msg
  rw [hashRem_toNat_eq_length] at hlen
  rw [hashFinal, absorb_t, fillBlk_t, hu.counter, add64, hlen, ← BitVec.ofNat_add, Nat.add_sub_cancel' hle]

theorem hashFinal_h : (hashFinal msg u).h = messageH nn kk msg := by
  have ht : add64 u.t (BitVec.ofNat 64 (messageBlock msg (lastBlock msg)).length) = BitVec.ofNat 64 msg.length := by
    simpa [hashFinal] using hashFinal_t hu
  rw [hashFinal, absorb_h, fillBlk_block, loadBlock_fillBlock, fillBlk_h, fillBlk_t, ht, hu.chain, messageH]

theorem hashFinal_blk : (hashFinal msg u).blk = BitVec.ofNat 64 (hashBlocks msg.length) := by
  rw [hashFinal, absorb_blk, fillBlk_blk, hu.count, hashBlocks_eq_succ]
  bv_omega

theorem hashFinal_lengths : (hashFinal msg u).nn = nn ∧ (hashFinal msg u).kk = kk := by
  rw [hashFinal, absorb_nn, absorb_kk, fillBlk_nn, fillBlk_kk]
  exact hu.lengths

theorem hashFinal_fault : (hashFinal msg u).fault = s.fault := by
  rw [hashFinal, absorb_fault, fillBlk_fault, hu.fault]

theorem hashFinal_traceEn : (hashFinal msg u).traceEn = s.traceEn := by
  rw [hashFinal, absorb_traceEn, fillBlk_traceEn, hu.traceEn]

theorem hashFinal_block (k : Fin 64) :
    (hashFinal msg u).block[k] =
      if 64 * lastBlock msg + k.val < msg.length then msg.getD (64 * lastBlock msg + k.val) 0
      else if lastBlock msg = 0 then s.block[k] else msg.getD (64 * (lastBlock msg - 1) + k.val) 0 := by
  rw [hashFinal, absorb_block, fillBlk_block, fillBlock_messageBlock_getElem, hu.block]

theorem hashFinal_log : LoggedBlocks s (hashFinal msg u) (hashBlocks msg.length) := by
  rw [hashBlocks_eq_succ]
  exact hu.log.absorb hu.traceEn _ _

end Final

/-- HASH with legal lengths ends in the FINISH of the last block and the DIGEST of its result (R181). -/
theorem hashNext_eq {nn kk : BitVec 6} (hlegal : configLegal nn kk = true) (msg : List Byte) (s : State) :
    ∃ u, HashProgress nn kk msg s (lastBlock msg) u ∧
      hashNext nn kk msg s =
        respondOk { hashFinal msg u with
          dout := digestBytes (hashFinal msg u).h (hashFinal msg u).nn, dlen := (hashFinal msg u).nn, dvalid := true } := by
  have hu := hashProgress_blocks hlegal s (mul_lastBlock_le msg)
  refine ⟨_, hu, ?_⟩
  rw [hashNext, hashFinish_eq hu.phase, commandNext_digest (hashFinal_phase_ready msg _).1]

/-- Settles O52: HASH ends as `hashNext_eq` says, with the fields of `hashFinal`. -/
theorem hashComputesTheDigestOfTheMessage : Obligations.HashComputesTheDigestOfTheMessage := by
  intro s nn kk msg hnn hnn32 hkk32 nb
  obtain ⟨u, hu, hnext⟩ := hashNext_eq (configLegal_eq_true.mpr ⟨hnn, hnn32, hkk32⟩) msg s
  have hhost : (hashNext nn kk msg s).host = s.host := hashNext_host nn kk msg s
  have hh := hashFinal_h hu
  have ht := hashFinal_t hu
  have hblk := hashFinal_blk hu
  obtain ⟨hfnn, hfkk⟩ := hashFinal_lengths hu
  have hfault := hashFinal_fault hu
  have htraceEn := hashFinal_traceEn hu
  obtain ⟨hphase, hready⟩ := hashFinal_phase_ready msg u
  obtain ⟨evs, htrace, hevents⟩ := hashFinal_log hu
  have hblock := hashFinal_block hu
  refine ⟨_, exec_hash nn kk msg s, ?_⟩
  rw [hnext] at hhost ⊢
  generalize hashFinal msg u = f at *
  refine ⟨rfl, hfault, hphase, ht, hblk, hh, hfnn, hfkk, rfl, hfnn, ?_, htraceEn, hready, hhost,
    ⟨evs, htrace.symm⟩, ?_, fun k => ?_⟩
  · rw [respondOk_dout, hh, hfnn]
  · rw [respondOk_trace, htrace, List.length_append, hevents]
    rfl
  · have hnb : nb = lastBlock msg + 1 := hashBlocks_eq_succ msg
    simpa [hnb] using hblock k

end Sys2Proof.Machine
end

section
/-! SUPPORT. The DIGEST command (R190 to R199): the digest buffer byte by byte and as `MemWrite`s (R192), and what phase
FINALIZED keeps (R196). -/

namespace Sys2Proof.Machine

/-! ### The digest buffer -/

theorem digestBuffer_ext {d e : DigestBuffer} (h : ∀ k : Fin 32, d[k] = e[k]) : d = e := Vector.ext fun i hi => h ⟨i, hi⟩

theorem digestBytes_getElem (h : Words8) (nn : BitVec 6) (k : Fin 32) :
    (digestBytes h nn)[k] = if k.val < nn.toNat then digestByte h k else 0 := by
  simp [digestBytes]

/-- Settles O18: byte `k` of a digest is of word `k div 4`, which is one of the first `ceil(nn / 4)` if `k` is below `nn`. -/
theorem digestReadsOnlyItsWords : Obligations.DigestReadsOnlyItsWords := by
  intro h h' nn heq
  refine digestBuffer_ext fun k => ?_
  rw [digestBytes_getElem, digestBytes_getElem]
  refine ite_congr rfl (fun hk => ?_) fun _ => rfl
  have hword : h[k.val / 4] = h'[k.val / 4] := heq ⟨k.val / 4, by omega⟩ (by dsimp only; omega)
  rw [digestByte, digestByte, hword]

/-! ### The digest as `MemWrite`s -/

/-- Writing the first `n` bytes of word `q` at its place writes the bytes of the serialization there (R13, R59). -/
theorem memWrite_word_getElem (h : Words8) (d : DigestBuffer) (q : Nat) {n : Nat} (hn : n ≤ 4) (k : Fin 32) :
    (memWrite d (4 * q) n (h.toList.getD q 0))[k] =
      if 4 * q ≤ k.val ∧ k.val < 4 * q + n then digestByte h k else d[k] := by
  simp only [memWrite, Fin.getElem_fin, Vector.getElem_ofFn]
  refine ite_congr rfl (fun hk => ?_) fun _ => rfl
  obtain rfl : k.val / 4 = q := by omega
  have hmod : k.val - 4 * (k.val / 4) = k.val % 4 := by omega
  have hlt : k.val / 4 < 8 := by omega
  rw [digestByte, hmod]
  simp [hlt]

/-- The first `q` words of `h`, written one after another to an empty buffer (R192). -/
def writeWords (h : Words8) (q : Nat) : DigestBuffer :=
  (List.range q).foldl (fun d i => memWrite d (4 * i) 4 (h.toList.getD i 0)) (Vector.replicate 32 0)

theorem writeWords_succ (h : Words8) (q : Nat) :
    writeWords h (q + 1) = memWrite (writeWords h q) (4 * q) 4 (h.toList.getD q 0) := by
  simp [writeWords, List.range_succ]

theorem writeWords_getElem (h : Words8) (q : Nat) (k : Fin 32) :
    (writeWords h q)[k] = if k.val < 4 * q then digestByte h k else 0 := by
  induction q with
  | zero => simp [writeWords]
  | succ q ih =>
    rw [writeWords_succ, memWrite_word_getElem _ _ _ le_rfl, ih, ← ite_or]
    exact if_congr (by omega) rfl rfl

/-- R192: the digest is its whole words and then the bytes that are left (R194). -/
theorem digestBytes_eq_memWrite (h : Words8) (nn : BitVec 6) :
    digestBytes h nn =
      if nn.toNat % 4 = 0 then writeWords h (nn.toNat / 4)
      else memWrite (writeWords h (nn.toNat / 4)) (4 * (nn.toNat / 4)) (nn.toNat % 4) (h.toList.getD (nn.toNat / 4) 0) := by
  refine digestBuffer_ext fun k => ?_
  rw [digestBytes_getElem]
  by_cases hwhole : nn.toNat % 4 = 0
  · have hnn : 4 * (nn.toNat / 4) = nn.toNat := by omega
    rw [if_pos hwhole, writeWords_getElem, hnn]
  · have hleft : nn.toNat % 4 ≤ 4 := by omega
    rw [if_neg hwhole, memWrite_word_getElem _ _ _ hleft, writeWords_getElem, ← ite_or]
    exact if_congr (by omega) rfl rfl

/-! ### The command -/

theorem exec_digest {s : State} (hp : s.phase = .finalized) :
    exec .digest s = .next (respondOk { s with dout := digestBytes s.h s.nn, dlen := s.nn, dvalid := true }) := by
  rw [exec_command rfl, commandNext_digest hp]

theorem exec_digest_of_phase_ne {s : State} (hp : s.phase ≠ .finalized) :
    exec .digest s = .next (raiseError .state s) := by
  have he : commandError s.phase .digest = some .state := by simp [commandError, hp]
  rw [exec_command rfl, commandNext_of_error he]

/-- Settles O17: `exec_digest` with the buffer byte by byte and by `digestBytes_eq_memWrite`, `exec_digest_of_phase_ne`
elsewhere. -/
theorem digestSerializesHashState : Obligations.DigestSerializesHashState := by
  intro s
  refine ⟨fun hp => ⟨_, exec_digest hp, rfl, digestBytes_getElem s.h s.nn, fun _ => digestBytes_eq_memWrite s.h s.nn⟩, ?_⟩
  intro hp
  rw [exec_digest_of_phase_ne hp, raiseError_state]

/-! ### What phase FINALIZED keeps -/

/-- In phase FINALIZED a command that succeeds, other than INIT, is NOP, TRACE or DIGEST (R179). -/
theorem commandError_finalized_cases {i : Instr} (hi : i.isCommand = true)
    (hinit : ∀ nn kk, i = .init nn kk → configLegal nn kk = false) (h : commandError .finalized i = none) :
    i = .nop ∨ (∃ en, i = .trace en) ∨ i = .digest := by
  cases i with
  | nop => exact .inl rfl
  | trace en => exact .inr (.inl ⟨en, rfl⟩)
  | digest => exact .inr (.inr rfl)
  | init nn kk =>
    have hlegal := commandError_init_eq_none.mp h
    simp [hinit nn kk rfl] at hlegal
  | update | finish => simp at h
  | reservedOp6 | reservedOp7 => simp [commandError] at h
  | gstep | add32 | xor32 | rotr | g | round | f | reset | hash => simp [Instr.isCommand] at hi

/-- Settles O19: a command that raises an error, NOP and TRACE write none of it, and a DIGEST writes the bytes that a valid
digest has by the invariant of R45. -/
theorem validDigestIsImmutable : Obligations.ValidDigestIsImmutable := by
  intro s t i hinv hp hi hinit hnext
  obtain rfl := (exec_command_eq_next hi).mp hnext
  cases he : commandError s.phase i with
  | some e =>
    have hnd : i ≠ .digest := by
      rintro rfl
      simp [commandError_digest_eq_none.mpr hp] at he
    rw [commandNext_of_error he]
    exact ⟨hp, rfl, rfl, rfl, fun hd => absurd hd hnd, fun hv => ⟨hv, rfl, rfl⟩⟩
  | none =>
    rw [commandNext_of_success he]
    obtain rfl | ⟨en, rfl⟩ | rfl := commandError_finalized_cases hi hinit (hp ▸ he)
    · exact ⟨hp, rfl, rfl, rfl, fun _ => rfl, fun hv => ⟨hv, rfl, rfl⟩⟩
    · exact ⟨hp, rfl, rfl, rfl, fun _ => rfl, fun hv => ⟨hv, rfl, rfl⟩⟩
    · refine ⟨hp, rfl, rfl, rfl, fun _ => rfl, fun hv => ?_⟩
      obtain ⟨-, -, hdlen, hdout⟩ := hinv.digest hv
      exact ⟨rfl, hdout.symm, hdlen.symm⟩

end Sys2Proof.Machine
end

section
/-! SUPPORT. Every state and every instruction has a next state (R225, R226); waiting and writes of BLK (R222, R63). -/

namespace Sys2Proof.Machine

/-- A ready unit with nothing presented waits (R222). -/
theorem step_waiting {s : State} (hr : s.ready = true) (hh : s.host = []) : step s = .next s := by
  simp [step, hh, hr]

/-- Settles O8: `step_waiting`, and `fillBlk` writes the block byte by byte. -/
theorem waitingAndFillingChangeNothing : Obligations.WaitingAndFillingChangeNothing :=
  ⟨fun _ => step_waiting, fun s bytes rest hh =>
    ⟨fillBlk bytes { s with host := rest }, step_fill hh, rfl, fillBlock_getElem bytes s.block⟩⟩

/-- No instruction stops: the errors of the commands are next states too (R225). -/
theorem exec_isNext (i : Instr) (s : State) : ∃ t, exec i s = .next t := by
  cases hi : i.isCommand with
  | true => exact ⟨_, exec_command hi s⟩
  | false =>
    cases i with
    | hash nn kk msg => exact ⟨_, exec_hash nn kk msg s⟩
    | add32 x y z => cases z <;> exact ⟨_, rfl⟩
    | gstep | xor32 | rotr | g | round | f | reset => exact ⟨_, rfl⟩
    | nop | init | update | finish | digest | trace | reservedOp6 | reservedOp7 => simp [Instr.isCommand] at hi

theorem execWord_of_decode_error {w : BitVec 16} {e : IllegalWord} (h : decode w = .error e) (s : State) :
    execWord w s = .next (raiseError .illegal s) := by
  rw [execWord, h]

/-- No command word stops (R226). -/
theorem execWord_isNext (w : BitVec 16) (s : State) : ∃ t, execWord w s = .next t := by
  cases h : decode w with
  | ok i => rw [execWord_of_decode_ok h]; exact exec_isNext i s
  | error e => exact ⟨_, execWord_of_decode_error h s⟩

theorem step_isNext (s : State) : ∃ t, step s = .next t := by
  cases hh : s.host with
  | nil =>
    cases hr : s.ready with
    | true => exact ⟨s, step_waiting hr hh⟩
    | false => exact ⟨_, step_busy hr (.inl hh)⟩
  | cons a rest =>
    cases a with
    | reset => rw [step_reset hh]; exact exec_isNext .reset _
    | fill bytes => exact ⟨_, step_fill hh⟩
    | command w =>
      cases hr : s.ready with
      | true => rw [step_command hh hr]; exact execWord_isNext w _
      | false => exact ⟨_, step_busy hr (.inr ⟨w, rest, hh⟩)⟩

/-- Settles O9, by `step_isNext` and `exec_isNext`. -/
theorem nothingStops : Obligations.NothingStops := ⟨step_isNext, exec_isNext⟩

end Sys2Proof.Machine
end

section
/-! SUPPORT. The responses of the commands (R201 to R205), and the reserved words (R83). -/

namespace Sys2Proof.Machine

/-! ### The response of a command -/

theorem commandResult_resp {i : Instr} (hi : i.isCommand = true) {s : State} (h : commandError s.phase i = none) :
    (commandResult i s).resp = .ok := by
  cases i with
  | nop | init | digest | trace => rfl
  | update | finish => exact absorb_resp _ _ s
  | reservedOp6 | reservedOp7 => simp [commandError] at h
  | gstep | add32 | xor32 | rotr | g | round | f | reset | hash => simp [Instr.isCommand] at hi

/-- The response of a command is the code of the error that it raises (R201). -/
theorem commandNext_resp_eq_iff {i : Instr} (hi : i.isCommand = true) (s : State) (e : CmdError) :
    (commandNext i s).resp = e.resp ↔ commandError s.phase i = some e := by
  cases h : commandError s.phase i with
  | some e' => rw [commandNext_of_error h, raiseError_resp, CmdError.resp_injective.eq_iff, Option.some.injEq]
  | none => simp [commandNext_of_success h, commandResult_resp hi h, e.resp_ne_ok.symm]

/-- Settles O21: a command that raises no error answers OK, and `raiseError` writes RESP and FAULT only. -/
theorem errorChangesOnlyRespAndFault : Obligations.ErrorChangesOnlyRespAndFault := by
  intro i s t hi hnext hresp
  obtain rfl := (exec_command_eq_next hi).mp hnext
  cases h : commandError s.phase i with
  | some e => rw [commandNext_of_error h]; rfl
  | none => exact absurd (by rw [commandNext_of_success h, commandResult_resp hi h]) hresp

/-! ### The reserved words -/

/-- The word decodes to no instruction or to a reserved opcode: what `Illegal` is in the model (R82, assumption 9). -/
def DecodesToIllegal (w : BitVec 16) : Prop :=
  (∃ e, decode w = .error e) ∨ (∃ hi, decode w = .ok (.reservedOp6 hi)) ∨ ∃ hi, decode w = .ok (.reservedOp7 hi)

/-- A word whose format reserves some bits is illegal unless they are as the format has them. -/
theorem reservedWord_iff_of_ite {w : BitVec 16} {c : Prop} [Decidable c] {i : Instr} {e : IllegalWord}
    (hdec : decode w = if c then .ok i else .error e) (hres : reservedWord w ↔ ¬ c)
    (h6 : ∀ hi, i ≠ .reservedOp6 hi := by simp) (h7 : ∀ hi, i ≠ .reservedOp7 hi := by simp) :
    reservedWord w ↔ DecodesToIllegal w := by
  by_cases hc : c <;> simp [DecodesToIllegal, hdec, hres, hc, h6, h7]

/-- R83, item by item, is what the decoder takes for illegal (R82). -/
theorem reservedWord_iff (w : BitVec 16) : reservedWord w ↔ DecodesToIllegal w := by
  have hmod := opField_toNat w
  obtain hop | hop | hop | hop | hop | hop | hop | hop := opField_cases w <;> rw [hop] at hmod
  · exact reservedWord_iff_of_ite (decode_of_op_nop hop) (by rw [field_eq_iff, reservedWord]; bv_omega)
  · exact reservedWord_iff_of_ite (decode_of_op_init hop) (by rw [field_eq_iff, reservedWord]; bv_omega)
  · exact reservedWord_iff_of_ite (decode_of_op_update hop) (by rw [field_eq_iff, reservedWord]; bv_omega)
  · have hfinish := decode_of_op_finish hop
    by_cases hrest : w.extractLsb' 10 6 = 0
    · rw [if_pos hrest] at hfinish
      rw [field_eq_iff] at hrest
      exact reservedWord_iff_of_ite hfinish (by rw [BitVec.le_def, toNat_extractLsb', reservedWord]; bv_omega)
    · rw [if_neg hrest] at hfinish
      rw [field_eq_iff] at hrest
      exact iff_of_true (by rw [reservedWord]; bv_omega) (.inl ⟨_, hfinish⟩)
  · exact reservedWord_iff_of_ite (decode_of_op_digest hop) (by rw [field_eq_iff, reservedWord]; bv_omega)
  · exact reservedWord_iff_of_ite (decode_of_op_trace hop) (by rw [field_eq_iff, reservedWord]; bv_omega)
  · exact iff_of_true (.inl (.inl hmod.symm)) (.inr (.inl ⟨_, decode_of_op_six hop⟩))
  · exact iff_of_true (.inl (.inr hmod.symm)) (.inr (.inr ⟨_, decode_of_op_seven hop⟩))

/-! ### IllegalCommand -/

theorem execWord_of_reservedWord {w : BitVec 16} (h : reservedWord w) (s : State) :
    execWord w s = .next (raiseError .illegal s) := by
  obtain ⟨e, hdec⟩ | ⟨hi, hdec⟩ | ⟨hi, hdec⟩ := (reservedWord_iff w).mp h
  · exact execWord_of_decode_error hdec s
  · exact execWord_of_decode_ok hdec s
  · exact execWord_of_decode_ok hdec s

/-- No instruction but the reserved opcodes raises IllegalCommand, if it is well formed (R202, R203, R204). -/
theorem commandError_ne_illegal {i : Instr} (hwf : i.wellFormed = true) (h6 : ∀ hi, i ≠ .reservedOp6 hi)
    (h7 : ∀ hi, i ≠ .reservedOp7 hi) (p : Phase) : commandError p i ≠ some .illegal := by
  cases i with
  | finish len =>
    have hlen : ¬ 64#7 < len := BitVec.not_lt.mpr (of_decide_eq_true hwf)
    simp [commandError, hlen]
  | reservedOp6 hi => exact absurd rfl (h6 hi)
  | reservedOp7 hi => exact absurd rfl (h7 hi)
  | _ => simp [commandError]

theorem execWord_of_not_reservedWord {w : BitVec 16} (h : ¬ reservedWord w) (s : State) :
    ∃ t, execWord w s = .next t ∧ t.resp ≠ .illegalCommand := by
  rw [reservedWord_iff, DecodesToIllegal, not_or, not_or, not_exists, not_exists, not_exists] at h
  obtain ⟨herror, h6, h7⟩ := h
  cases hdec : decode w with
  | error e => exact absurd hdec (herror e)
  | ok i =>
    have hi := decode_isCommand hdec
    obtain ⟨-, hwf, -⟩ := encodeOfDecodeIsIdentity w i hdec
    have hlegal : commandError s.phase i ≠ some .illegal :=
      commandError_ne_illegal hwf (fun up hup => h6 up (hup ▸ hdec)) (fun up hup => h7 up (hup ▸ hdec)) s.phase
    exact ⟨commandNext i s, (execWord_of_decode_ok hdec s).trans (exec_command hi s),
      mt (commandNext_resp_eq_iff hi s .illegal).mp hlegal⟩

/-- Settles O5: a reserved word raises IllegalCommand, and any other word runs a well-formed command. -/
theorem illegalCommandExactlyOnReservedWords : Obligations.IllegalCommandExactlyOnReservedWords := by
  intro s w rest hh hr
  rw [step_command hh hr]
  exact ⟨fun h => execWord_of_reservedWord h _, fun h => execWord_of_not_reservedWord h _⟩

end Sys2Proof.Machine
end

section
/-! SUPPORT. No operation reads TRACE_EN or the log, but to write them (R216). -/

namespace Sys2Proof.Machine

/-- Two states that differ in TRACE_EN and the log only. -/
def SameButTracing (s t : State) : Prop := s.untraced = t.untraced

/-- The operation does not read TRACE_EN and the log, but to write them (R216). -/
def TraceBlind (f : State → State) : Prop := ∀ ⦃s t⦄, SameButTracing s t → SameButTracing (f s) (f t)

/-- It is enough to look at the states that are not traced. -/
theorem TraceBlind.of_untraced {f : State → State} (hf : ∀ s, SameButTracing (f s.untraced) (f s)) : TraceBlind f :=
  fun s t h =>
  calc (f s).untraced = (f s.untraced).untraced := (hf s).symm
    _ = (f t.untraced).untraced := congrArg (fun u => (f u).untraced) h
    _ = (f t).untraced := hf t

theorem TraceBlind.foldl {α : Type} {f : State → α → State} (hf : ∀ a, TraceBlind fun s => f s a) (as : List α) :
    TraceBlind fun s => as.foldl f s := by
  induction as with
  | nil => exact fun _ _ h => h
  | cons a as ih => exact fun _ _ h => ih (hf a h)

theorem traceBlind_gstepOp (r : Fin 10) (g : Fin 8) : TraceBlind (gstepOp r g) := .of_untraced fun _ => rfl

theorem traceBlind_roundOp (r : Fin 10) : TraceBlind (roundOp r) := fun _ _ h => by
  have hpre : TraceBlind (emitRoundPre r) := .of_untraced fun _ => rfl
  have hpost : TraceBlind (emitRoundPost r) := .of_untraced fun _ => rfl
  exact hpost (TraceBlind.foldl (traceBlind_gstepOp r) gOrder (hpre h))

theorem traceBlind_runRounds : TraceBlind runRounds := .foldl traceBlind_roundOp roundOrder

theorem traceBlind_fOp (final : Bool) : TraceBlind (fOp final) := fun _ _ h => by
  have henter : TraceBlind (enterF final) := .of_untraced fun _ => rfl
  have hfold : TraceBlind foldH := .of_untraced fun _ => rfl
  exact hfold (traceBlind_runRounds (henter h))

theorem traceBlind_absorb (keep : Nat) (final : Bool) : TraceBlind (absorb keep final) := fun _ _ h => by
  have hbegin : TraceBlind (beginCompression keep final) := .of_untraced fun _ => rfl
  have hend : TraceBlind endCompression := .of_untraced fun _ => rfl
  exact hend (traceBlind_runRounds (hbegin h))

theorem traceBlind_commandResult (i : Instr) : TraceBlind (commandResult i) := by
  cases i with
  | update => exact traceBlind_absorb 64 false
  | finish len => exact traceBlind_absorb len.toNat true
  | _ => exact .of_untraced fun _ => rfl

/-- The phase alone decides whether a command raises an error (R179). -/
theorem traceBlind_commandNext (i : Instr) : TraceBlind (commandNext i) := .of_untraced fun s => by
  cases h : commandError s.phase i with
  | some e =>
    rw [commandNext_of_error h, commandNext_of_error (s := s.untraced) h]
    rfl
  | none =>
    rw [commandNext_of_success h, commandNext_of_success (s := s.untraced) h]
    exact traceBlind_commandResult i rfl

theorem traceBlind_fillBlk (bytes : List Byte) : TraceBlind (fillBlk bytes) := .of_untraced fun _ => rfl

theorem traceBlind_hashNext (nn kk : BitVec 6) (msg : List Byte) : TraceBlind (hashNext nn kk msg) := fun _ _ h => by
  have hblock (j : Nat) : TraceBlind fun s => hashBlockNext msg s j := fun _ _ h =>
    traceBlind_commandNext .update (traceBlind_fillBlk _ h)
  have hblocks := TraceBlind.foldl hblock (List.range (lastBlock msg)) (traceBlind_commandNext (.init nn kk) h)
  exact traceBlind_commandNext .digest (traceBlind_commandNext (.finish (hashRem msg)) (traceBlind_fillBlk _ hblocks))

/-- Settles O44: every instruction's next state is that of an operation blind to tracing. -/
theorem tracingChangesNothing : Obligations.TracingChangesNothing := by
  intro i s t h
  cases hi : i.isCommand with
  | true =>
    obtain rfl := (exec_command_eq_next hi).mp h
    exact ⟨_, exec_command hi _, traceBlind_commandNext i rfl⟩
  | false =>
    cases i with
    | hash nn kk msg =>
      rw [exec_hash] at h
      cases h
      exact ⟨_, exec_hash nn kk msg _, traceBlind_hashNext nn kk msg rfl⟩
    | round r => cases h; exact ⟨_, exec_round r _, traceBlind_roundOp r rfl⟩
    | f final => cases h; exact ⟨_, exec_f final _, traceBlind_fOp final rfl⟩
    | add32 x y z => cases z <;> cases h <;> exact ⟨_, rfl, rfl⟩
    | gstep | xor32 | rotr | g | reset => cases h; exact ⟨_, rfl, rfl⟩
    | nop | init | update | finish | digest | trace | reservedOp6 | reservedOp7 => simp [Instr.isCommand] at hi

end Sys2Proof.Machine
end

section
/-! SUPPORT. FAULT is sticky, and no step reads it (R210). -/

namespace Sys2Proof.Machine

/-- The state with another value in FAULT. -/
def State.withFault (f : BitVec 3) (s : State) : State := { s with fault := f }

/-- Two states that differ in FAULT only. -/
def SameOutsideFault (s t : State) : Prop := t = s.withFault t.fault

theorem commandResult_withFault (i : Instr) (s : State) (f : BitVec 3) :
    commandResult i (s.withFault f) = (commandResult i s).withFault f := by
  cases i with
  | update | finish => simp only [commandResult, absorb_eq, State.withFault]
  | _ => rfl

/-- An error sets its bit of FAULT beside those that are set, and reads none of them for anything else (R205, R210). -/
theorem commandNext_sameOutsideFault (i : Instr) (s : State) (f : BitVec 3) :
    SameOutsideFault (commandNext i s) (commandNext i (s.withFault f)) := by
  cases he : commandError s.phase i with
  | some e =>
    rw [commandNext_of_error he, commandNext_of_error (s := s.withFault f) he]
    rfl
  | none =>
    rw [commandNext_of_success he, commandNext_of_success (s := s.withFault f) he, commandResult_withFault]
    rfl

theorem stepWordOp_withFault (s : State) (f : BitVec 3) (w : Fin 10 × Fin 8) :
    stepWordOp (s.withFault f) w = (stepWordOp s w).withFault f := by
  rw [stepWordOp_eq, stepWordOp_eq]
  rfl

/-- A busy unit neither reads nor writes FAULT. -/
theorem step_busy_withFault {s t : State} (hr : s.ready = false)
    (hh : s.host = [] ∨ ∃ w rest, s.host = .command w :: rest) (h : step s = .next t) (f : BitVec 3) :
    step (s.withFault f) = .next (t.withFault f) := by
  obtain ⟨⟩ := (step_busy hr hh).symm.trans h
  have hword : (s.withFault f).stepWord = s.stepWord := rfl
  rw [step_busy (s := s.withFault f) hr hh, hword, stepWordOp_withFault]
  split <;> rfl

/-- What FAULT held reaches nothing but FAULT (R210). -/
theorem step_sameOutsideFault {s t : State} (h : step s = .next t) (f : BitVec 3) :
    ∃ t', step (s.withFault f) = .next t' ∧ SameOutsideFault t t' := by
  obtain ⟨rest, hh, h⟩ | ⟨bytes, rest, hh, rfl⟩ | ⟨w, rest, hh, hr, h⟩ | ⟨hh, hr, rfl⟩ | ⟨hh, hr, -⟩ := step_cases h
  · cases h
    exact ⟨_, step_reset (s := s.withFault f) hh, rfl⟩
  · exact ⟨_, step_fill (s := s.withFault f) hh, rfl⟩
  · rw [step_command (s := s.withFault f) hh hr]
    obtain ⟨i, hdec, hi, rfl⟩ | ⟨⟨e, hdec⟩, rfl⟩ := execWord_cases h
    · rw [execWord_of_decode_ok hdec, exec_command hi]
      exact ⟨_, rfl, commandNext_sameOutsideFault i { s with host := rest } f⟩
    · exact ⟨_, execWord_of_decode_error hdec _, rfl⟩
  · exact ⟨_, step_waiting (s := t.withFault f) hr hh, rfl⟩
  · exact ⟨_, step_busy_withFault hr hh h f, rfl⟩

/-- Only a reset clears a bit of FAULT (R210). -/
theorem step_faultKept {s t : State} (hreset : ∀ rest, s.host ≠ .reset :: rest) (h : step s = .next t) :
    FaultKept s t := by
  obtain ⟨rest, hh, -⟩ | ⟨bytes, rest, -, rfl⟩ | ⟨w, rest, -, -, h⟩ | ⟨-, -, rfl⟩ | ⟨-, -, h⟩ := step_cases h
  · exact absurd hh (hreset rest)
  · exact .of_eq (fillBlk_fault _ bytes)
  · obtain ⟨i, -, -, rfl⟩ | ⟨-, rfl⟩ := execWord_cases h
    · exact faultKept_commandNext i { s with host := rest }
    · exact faultKept_raiseError .illegal { s with host := rest }
  · exact .of_eq rfl
  · obtain ⟨u, hu, -, rfl | rfl⟩ := busyStep_cases h
    · exact .of_eq (by rw [hu])
    · exact .of_eq (by rw [hu]; rfl)

theorem step_reset_fault {s t : State} {rest : List HostAction} (hh : s.host = .reset :: rest) (h : step s = .next t) :
    t.fault = 0 := by
  obtain ⟨⟩ := (step_reset hh).symm.trans h
  rfl

/-- Settles O45, by `step_faultKept`, `step_reset_fault` and `step_sameOutsideFault`. -/
theorem faultBitsStayUntilReset : Obligations.FaultBitsStayUntilReset :=
  ⟨fun _ _ h => ⟨fun hreset => step_faultKept hreset h, fun ⟨_, hh⟩ => step_reset_fault hh h⟩,
    fun _ _ f h => step_sameOutsideFault h f⟩

end Sys2Proof.Machine
end
